-- ==== Sys2Proof/Word.lean ====
section
/-! DEFINITION. The fixed widths of the block (00_scope.md R8, R9, R12): everything is unsigned. -/

namespace Sys2Proof

/-- One byte of memory, and the width of the `attribute` and `reserved` fields (R8). -/
abbrev Byte := BitVec 8

/-- A 16-bit field: the `length` field of a record and CH_LAST (R8, R20). -/
abbrev Half := BitVec 16

/-- A register, a command word and a physical address: 32 bits (R9, R17, R50). -/
abbrev Word := BitVec 32

/-- A record as one number, and the widest bus datum: 64 bits (41_record_serializer.md R80). -/
abbrev DWord := BitVec 64

end Sys2Proof
end

