-- ==== Sys2Proof/Syntax.lean ====
section
/-! DEFINITION. The commands: one constructor per row of spec/opcode_table.json (30_encoding.md R51).
A command word has no operand field (R50): the operands are the configuration registers. -/

namespace Sys2Proof

/-- The block's five commands (30_encoding.md R51). -/
inductive Instr where
  /-- NOP, 42_host_commands.md R92. -/
  | nop
  /-- BUILD, 42_host_commands.md R93. -/
  | build
  /-- SERIALIZE, 42_host_commands.md R94. -/
  | serialize
  /-- BUILD_SERIALIZE, 42_host_commands.md R95. -/
  | buildSerialize
  /-- DISCARD, 42_host_commands.md R96. -/
  | discard
deriving DecidableEq, Repr

end Sys2Proof
end

