-- ==== Sys2Proof/WellFormed.lean ====
section
/-! DEFINITION. Well-formedness of command words (30_encoding.md R50, R52) and of commands. -/

namespace Sys2Proof

/-- RSVD, bits 31:4 of a command word, is 0 (R50). -/
def rsvdIsZero (w : Word) : Bool := w.toNat / 16 == 0

/-- OP, bits 3:0 of a command word, is one of 0x0 .. 0x4 (R51, R52). -/
def opIsCommand (w : Word) : Bool := decide (w.toNat % 16 ≤ 4)

/-- A command word that is not illegal (R52). -/
def legalWord (w : Word) : Bool := rsvdIsZero w && opIsCommand w

/-- A command has no register, immediate or mode field (R50), so every one is well formed. -/
def Instr.wellFormed : Instr → Bool
  | .nop => true
  | .build => true
  | .serialize => true
  | .buildSerialize => true
  | .discard => true

end Sys2Proof
end

