-- ==== Sys2Proof/Decode.lean ====
section
/-! DEFINITION. Decoding a command word, total on every 32-bit word, and the encoder
(30_encoding.md R50, R51, R52). -/

namespace Sys2Proof

/-- Why a command word is illegal (30_encoding.md R52). -/
inductive BadWord where
  /-- RSVD, bits 31:4, is not 0. -/
  | rsvdNotZero
  /-- OP is one of 0x5 .. 0xF. -/
  | reservedOp (op : BitVec 4)
deriving DecidableEq, Repr

/-- OP = w[3:0] (R50). -/
def opField (w : Word) : BitVec 4 := w.extractLsb' 0 4

/-- RSVD = w[31:4] (R50). -/
def rsvdField (w : Word) : BitVec 28 := w.extractLsb' 4 28

/-- The command a word stands for: the match is on the whole word (R51); any other word is illegal,
rejected by the reason R52 gives. -/
def decode (w : Word) : Except BadWord Instr :=
  if rsvdField w = 0#28 then
    match (opField w).toNat with
    | 0x0 => .ok .nop
    | 0x1 => .ok .build
    | 0x2 => .ok .serialize
    | 0x3 => .ok .buildSerialize
    | 0x4 => .ok .discard
    | _ => .error (.reservedOp (opField w))
  else .error .rsvdNotZero

/-- The word of a command, from the table of R51. -/
def encode : Instr → Word
  | .nop => 0x00000000
  | .build => 0x00000001
  | .serialize => 0x00000002
  | .buildSerialize => 0x00000003
  | .discard => 0x00000004

/-- The command read from an instruction whose bits are `w`, numbered as spec/opcode_table.json numbers
them. A command word is one 32-bit bus datum, so no byte order splits it (20_memory.md R35); no command
is longer than 32 bits (R53), and bits above `nbits` are 0. -/
def decodeTableWord (nbits w : Nat) : Option Instr :=
  if nbits ≤ 32 then (decode (BitVec.ofNat 32 (w % 2 ^ nbits))).toOption else none

end Sys2Proof
end

