-- ==== Sys2Proof/Config.lean ====
section
/-! DEFINITION. What is fixed for this hardware (00_scope.md R7 to R10, 30_encoding.md R47) and the one
free value. The platform's parameters (R11) are plain data, `Machine.Platform`. -/

namespace Sys2Proof.Config

/-- MAX_SEG, the longest segment of one record: 65532 bytes (R7). -/
def maxSeg : Nat := 65532

/-- REC_SIZE: a record is 8 bytes (R8). -/
def recSize : Nat := 8

/-- The number of physical addresses: ADDR_W is 32 (R9, 20_memory.md R29). -/
def addrSpace : Nat := 0x100000000

/-- The register window's size in bytes (20_memory.md R30). -/
def windowSize : Nat := 0x40

/-- FREE VALUE (notes/assumptions/7.md). The `n`-th draw: for each byte k of the record the engine is
writing, bit k says whether an observer (20_memory.md R39) or a reset (70_reset_and_hazards.md R122)
meets the new byte or the old one. It has no body: nothing is known of it. -/
opaque freeMask : Nat → BitVec 8

end Sys2Proof.Config
end

