-- ==== Sys2Proof/Machine/State.lean ====
section
/-! DEFINITION. The machine's state as plain data (10_state.md R16): the four parts of every instance of
the block, the memory they write, the platform they stand on and the accesses still to come. -/

namespace Sys2Proof.Machine

/-- The five host-writable configuration registers (10_state.md R17). -/
structure Regs where
  /-- SRC_ADDR, offset 0x00: start physical address of the buffer. -/
  srcAddr : Word
  /-- SRC_LEN, offset 0x04: total transfer length in bytes. -/
  srcLen : Word
  /-- TBL_BASE, offset 0x08: physical address of the table. -/
  tblBase : Word
  /-- TBL_CAP, offset 0x0C: size in bytes of the buffer at TBL_BASE. -/
  tblCap : Word
  /-- REC_INDEX, offset 0x20: the record shown by REC_WORD0 and REC_WORD1. -/
  recIndex : Word
deriving DecidableEq, Repr

/-- The latched chain (10_state.md R20). -/
structure ChainState where
  /-- CH_VALID: a chain is built. -/
  valid : Bool
  /-- CH_ADDR: latched start address A. -/
  addr : Word
  /-- CH_LEN: latched total length L. -/
  len : Word
  /-- CH_COUNT: number of records N. -/
  count : Word
  /-- CH_LAST: length of the terminal record. -/
  last : Half
deriving DecidableEq, Repr

/-- The empty chain: all five fields 0 (10_state.md R20, R21). -/
def ChainState.empty : ChainState := ⟨false, 0, 0, 0, 0⟩

/-- PHASE (10_state.md R23). -/
inductive Phase where
  /-- IDLE (0): BUSY reads 0. -/
  | idle
  /-- SER (1): a serialization is in progress, BUSY reads 1. -/
  | ser
deriving DecidableEq, Repr

/-- The serializer's state (10_state.md R23). -/
structure Engine where
  /-- PHASE. -/
  phase : Phase
  /-- SER_IDX: index of the next record to write. -/
  serIdx : Word
  /-- SER_BASE: TBL_BASE latched when SERIALIZE started. -/
  serBase : Word
  /-- BYTES_OUT: bytes written by the current or most recent serialization. -/
  bytesOut : Word
deriving DecidableEq, Repr

/-- The error codes of STATUS.ERR (60_exceptions.md R100); 8 .. 15 are never set. -/
inductive ErrCode where
  /-- ERR_NONE (0). -/
  | none
  /-- ERR_ZERO_LEN (1), R101. -/
  | zeroLen
  /-- ERR_SRC_OVF (2), R102. -/
  | srcOvf
  /-- ERR_NO_CHAIN (3), R103. -/
  | noChain
  /-- ERR_TBL_ALIGN (4), R104. -/
  | tblAlign
  /-- ERR_TBL_SMALL (5), R105. -/
  | tblSmall
  /-- ERR_TBL_OVF (6), R106. -/
  | tblOvf
  /-- ERR_BAD_CMD (7), R107. -/
  | badCmd
deriving DecidableEq, Repr

/-- The stored status bits (10_state.md R24); BUSY and CHAIN are read from PHASE and CH_VALID. -/
structure Status where
  /-- DONE: a serialization completed and no command was accepted since. -/
  done : Bool
  /-- OVR: a command write was dropped and none was accepted since. -/
  ovr : Bool
  /-- ERR: error code of the last accepted command. -/
  err : ErrCode
deriving DecidableEq, Repr

/-- DONE, OVR and ERR all clear (10_state.md R24). -/
def Status.clear : Status := ⟨false, false, .none⟩

/-- The whole state `st` of one instance of the block (10_state.md R16). -/
structure Block where
  regs : Regs
  chain : ChainState
  engine : Engine
  status : Status
deriving DecidableEq, Repr

/-- An instance right after reset: every value of 10_state.md R28. -/
def Block.atReset : Block := ⟨⟨0, 0, 0, 0, 0⟩, ChainState.empty, ⟨.idle, 0, 0, 0⟩, Status.clear⟩

/-- What a region of the platform's address space does not allow (42_host_commands.md R97). -/
inductive RegionKind where
  /-- No memory: neither loads nor stores are admitted. -/
  | noMemory
  /-- Memory that admits loads only. -/
  | readOnly
deriving DecidableEq, Repr

/-- A region of the address space that is not plain read-write memory. -/
structure Region where
  base : Nat
  size : Nat
  kind : RegionKind
deriving DecidableEq, Repr

/-- The platform's parameters (00_scope.md R11): fixed while a machine runs, different from platform to
platform (notes/assumptions/3.md). -/
structure Platform where
  /-- REG_BASE / 0x40 of instance 0: REG_BASE is 32 bits and a multiple of 0x40. -/
  regPage : BitVec 26
  /-- REG_BASE / 0x40 of instances 1 .. N_INSTANCES - 1 (60_exceptions.md R119; notes/assumptions/12.md). -/
  otherPages : List (BitVec 26)
  /-- Where `Mem` does not admit every access; all other addresses are read-write memory. -/
  regions : List Region
deriving DecidableEq, Repr

/-- N_INSTANCES, at least 1 (00_scope.md R11). -/
def Platform.instances (p : Platform) : Nat := p.otherPages.length + 1

/-- `Mem` (20_memory.md R29): the listed bytes, addresses strictly rising. An address that is not listed
holds no value the model knows (notes/assumptions/4.md). -/
abbrev Memory := List Host.Cell

/-- The width of a bus access. -/
inductive Size where
  | byte
  | half
  | word
  | dword
deriving DecidableEq, Repr

/-- What reaches the machine next (10_state.md R15, 70_reset_and_hazards.md R122;
notes/assumptions/1.md). -/
inductive Input where
  /-- An agent stores the low bytes of `v` at `addr`, least significant byte first. -/
  | store (addr : Word) (size : Size) (v : DWord)
  /-- An agent loads from `addr`. -/
  | load (addr : Word) (size : Size)
  /-- The engine of instance `k` takes its turn (42_host_commands.md R97). -/
  | engine (k : Nat)
  /-- Reset arrives at instance `k` (70_reset_and_hazards.md R122). -/
  | reset (k : Nat)
deriving DecidableEq, Repr

/-- The machine's state: the instances of the block and the world around them. The first four fields are
the `st` of instance 0 (10_state.md R16). -/
structure State where
  regs : Regs
  chain : ChainState
  engine : Engine
  status : Status
  /-- The `st` of instances 1 .. N_INSTANCES - 1 (00_scope.md R11; notes/assumptions/12.md). -/
  others : List Block
  /-- `Mem` (00_scope.md R11). -/
  mem : Memory
  /-- The platform's parameters; no step changes them. -/
  platform : Platform
  /-- The model's own: what is still to come, oldest first (notes/assumptions/1.md). -/
  inputs : List Input
  /-- The model's own: what the last load returned to its agent (42_host_commands.md R90;
  notes/assumptions/10.md). -/
  lastRead : Option DWord
  /-- The model's own: how many free values have been drawn (notes/assumptions/7.md). -/
  draws : Nat
deriving DecidableEq, Repr

/-- Why the machine stops with a fault. Both are about an agent's access to memory outside the block's
window; nothing the block itself does faults. -/
inductive Fault where
  /-- Raised by a load or store outside the register window that the platform does not admit (no memory
  there, past the top of the address space, or a store to read-only memory). Safe: the spec gives such an
  access no effect (notes/assumptions/5.md). -/
  | busError (addr : Word)
  /-- Raised by a load of memory that meets a byte nothing has written. Safe: the model stops where the
  hardware would return a value the spec does not give (notes/assumptions/4.md). -/
  | unwritten (addr : Word)
deriving DecidableEq, Repr

/-- Why the model gives a step no meaning. -/
inductive Refusal where
  /-- A command that has no meaning yet. Safe. No arm of `exec` answers it. -/
  | notModelled (mnemonic : String)
  /-- Raised by an access that touches a register window and is not an aligned 32-bit access inside it.
  Safe: "a model refuses such an access (it has no step)", 20_memory.md R38. -/
  | badAccess (addr : Word) (size : Size)
  /-- Raised by an engine's turn when its table overlaps a register window. Safe: "the spec gives no
  meaning to the run, and a model refuses the MemWrite", 70_reset_and_hazards.md R127. -/
  | tableOverlapsWindow
deriving DecidableEq, Repr

/-- The machine right after reset on platform `p`: every field of every instance at the value of
10_state.md R28, no memory byte listed, nothing to come. -/
def State.resetOn (p : Platform) : State where
  regs := ⟨0, 0, 0, 0, 0⟩
  chain := ChainState.empty
  engine := ⟨.idle, 0, 0, 0⟩
  status := Status.clear
  others := p.otherPages.map fun _ => Block.atReset
  mem := []
  platform := p
  inputs := []
  lastRead := none
  draws := 0

/-- The machine right after reset, on the platform with one instance, REG_BASE = 0 and read-write memory
everywhere else (DESIGN CHOICE, notes/assumptions/3.md: the platform is a parameter; claims about reset are stated
for `State.resetOn p`, every p). -/
def State.reset : State := State.resetOn ⟨0, [], []⟩

end Sys2Proof.Machine
end

