-- ==== Sys2Proof/Machine/Ops.lean ====
section
/-! DEFINITION. The named operations: field updates, byte lists, memory, the platform, and raising an
error (the block's exception entry) with the clearing of the status beside it. -/

namespace Sys2Proof.Machine

/-! ### One update per field of the state -/

def State.withRegs (s : State) (r : Regs) : State := { s with regs := r }
def State.withChain (s : State) (c : ChainState) : State := { s with chain := c }
def State.withEngine (s : State) (e : Engine) : State := { s with engine := e }
def State.withStatus (s : State) (t : Status) : State := { s with status := t }
def State.withOthers (s : State) (l : List Block) : State := { s with others := l }
def State.withPlatform (s : State) (p : Platform) : State := { s with platform := p }
def State.withMem (s : State) (m : Memory) : State := { s with mem := m }
def State.withInputs (s : State) (l : List Input) : State := { s with inputs := l }
def State.withLastRead (s : State) (v : Option DWord) : State := { s with lastRead := v }
def State.withDraws (s : State) (n : Nat) : State := { s with draws := n }

/-! ### Numbers and byte lists (00_scope.md R12, R13) -/

/-- `ceil_div(a, b)` (R12), for b > 0. -/
def ceilDiv (a b : Nat) : Nat := (a + b - 1) / b

/-- `LE_n(v)`: the n bytes of v, least significant first (R13). -/
def leBytes : Nat → Nat → List Byte
  | 0, _ => []
  | n + 1, v => BitVec.ofNat 8 v :: leBytes n (v / 256)

/-- `fromLE`: the inverse of `LE_n` (R13). -/
def fromLE : List Byte → Nat
  | [] => 0
  | b :: bs => b.toNat + 256 * fromLE bs

/-! ### Memory (20_memory.md R29) -/

/-- The canonical form: addresses strictly rising, each a 32-bit address. No listed byte equals what an
unlisted address reads as, because an unlisted address reads as no value. -/
abbrev Memory.wf (m : Memory) : Prop :=
  m.Pairwise (fun c d => c.1 < d.1) ∧ ∀ c ∈ m, c.1 < Config.addrSpace

/-- The byte at address `a`: none if nothing wrote it (notes/assumptions/4.md). -/
def memGet : Memory → Nat → Option Byte
  | [], _ => none
  | c :: m, a => if c.1 = a then some c.2 else memGet m a

/-- Write one byte, keeping the addresses in order. -/
def memPut : Memory → Nat → Byte → Memory
  | [], a, b => [(a, b)]
  | c :: m, a, b =>
    if a < c.1 then (a, b) :: c :: m
    else if a = c.1 then (a, b) :: m
    else c :: memPut m a b

/-- Write a list of bytes at rising addresses from `a`. -/
def memPutBytes : Memory → Nat → List Byte → Memory
  | m, _, [] => m
  | m, a, b :: bs => memPutBytes (memPut m a b) (a + 1) bs

/-- `MemWrite(addr, n, v)`: the n bytes of v, least significant byte at addr (00_scope.md R13). -/
def memWrite (m : Memory) (a n v : Nat) : Memory := memPutBytes m a (leBytes n v)

/-- Write those bytes of a list whose bit of `mask` is 1, counting bits from `k`; the others keep their
old value. -/
def memPutMasked (mask : BitVec 8) : Memory → Nat → Nat → List Byte → Memory
  | m, _, _, [] => m
  | m, a, k, b :: bs =>
    memPutMasked mask (if mask.getLsbD k then memPut m a b else m) (a + 1) (k + 1) bs

/-! ### The platform (00_scope.md R11) -/

/-- The number of bytes of an access. -/
def Size.bytes : Size → Nat
  | .byte => 1
  | .half => 2
  | .word => 4
  | .dword => 8

/-- REG_BASE of an instance: a multiple of 0x40 (R11). -/
def pageBase (q : BitVec 26) : Nat := q.toNat * Config.windowSize

/-- REG_BASE of instance 0. -/
def regBase (p : Platform) : Nat := pageBase p.regPage

/-- Whether any of the `n` bytes from `a` lies in an instance's register window (20_memory.md R30). -/
def touchesPage (q : BitVec 26) (a n : Nat) : Bool :=
  decide (a < pageBase q + Config.windowSize ∧ pageBase q < a + n)

/-- Whether any of the `n` bytes from `a` lies in the register window of instance 0. -/
def touchesWindow (p : Platform) (a n : Nat) : Bool := touchesPage p.regPage a n

/-- Whether any of the `n` bytes from `a` lies in a register window. -/
def touchesAnyWindow (p : Platform) (a n : Nat) : Bool :=
  (p.regPage :: p.otherPages).any fun q => touchesPage q a n

/-- The instance in whose register window one of the `n` bytes from `a` lies. -/
def windowOf (p : Platform) (a n : Nat) : Option Nat :=
  (p.regPage :: p.otherPages).findIdx? fun q => touchesPage q a n

/-- Whether none of the `n` bytes from `a` lies in the region. -/
def Region.misses (r : Region) (a n : Nat) : Bool :=
  decide (r.size = 0 ∨ a + n ≤ r.base ∨ r.base + r.size ≤ a)

/-- Whether `Mem` admits a store of the `n` bytes from `a`: all of them exist and are writable
(42_host_commands.md R97; notes/assumptions/6.md). -/
def admitsStore (p : Platform) (a n : Nat) : Bool :=
  decide (a + n ≤ Config.addrSpace) && p.regions.all (fun r => r.misses a n)

/-- Whether `Mem` admits a load of the `n` bytes from `a`. -/
def admitsLoad (p : Platform) (a n : Nat) : Bool :=
  decide (a + n ≤ Config.addrSpace) &&
    p.regions.all (fun r => decide (r.kind = .readOnly) || r.misses a n)

/-! ### Instances of the block (00_scope.md R11, 60_exceptions.md R119) -/

/-- The number of instances held; `Platform.instances` of the platform in every state a run reaches. -/
def State.instances (s : State) : Nat := s.others.length + 1

/-- The `st` of instance 0. -/
def State.block (s : State) : Block := ⟨s.regs, s.chain, s.engine, s.status⟩

/-- The state with the `st` of instance 0 replaced. -/
def State.withBlock (s : State) (b : Block) : State :=
  { s with regs := b.regs, chain := b.chain, engine := b.engine, status := b.status }

/-- The `st` of instance `k`. -/
def State.blockAt (s : State) : Nat → Option Block
  | 0 => some s.block
  | k + 1 => s.others[k]?

/-- The platform with instances 0 and `k` exchanged. -/
def Platform.focus (p : Platform) : Nat → Platform
  | 0 => p
  | k + 1 =>
    match p.otherPages[k]? with
    | some q => { p with regPage := q, otherPages := p.otherPages.set k p.regPage }
    | none => p

/-- The state with instances 0 and `k` exchanged: the rules of the block, written for instance 0, then
speak of instance `k`. Doing it again undoes it. -/
def State.focus (s : State) : Nat → State
  | 0 => s
  | k + 1 =>
    match s.others[k]? with
    | some b =>
      ((s.withBlock b).withOthers (s.others.set k s.block)).withPlatform (s.platform.focus (k + 1))
    | none => s

/-- Run `f`, written for instance 0, on instance `k`; on an instance there is none of, nothing happens
(notes/assumptions/13.md). -/
def onInstance (k : Nat) (f : State → Host.Outcome State Fault Refusal) (s : State) :
    Host.Outcome State Fault Refusal :=
  if k < s.instances then
    match f (s.focus k) with
    | .next t => .next (t.focus k)
    | .fault e => .fault e
    | .refused r => .refused r
  else .next s

/-! ### Errors: the block's exception entry (60_exceptions.md R110) -/

/-- How a command's body ends. -/
inductive CmdEnd where
  /-- It ran to its end. -/
  | done (s : State)
  /-- `raise Err(code)` ended it. -/
  | raised (s : State)
deriving DecidableEq, Repr

/-- The state a command's body leaves. -/
def CmdEnd.state : CmdEnd → State
  | .done s => s
  | .raised s => s

/-- `raise Err(code)` (60_exceptions.md R110): ERR is set, what the command did before stays, nothing
else changes and the command ends. There is no saved pc, vector or mode. -/
def raiseErr (c : ErrCode) (s : State) : CmdEnd :=
  .raised (s.withStatus { s.status with err := c })

/-- An accepted command clears DONE, OVR and ERR (42_host_commands.md R91, 60_exceptions.md R112): the
only thing that ends an error, beside reset. -/
def clearStatus (s : State) : State := s.withStatus Status.clear

/-- A command written while BUSY is dropped: OVR is set and nothing else changes (42_host_commands.md
R91, 60_exceptions.md R111). -/
def dropCommand (s : State) : State := s.withStatus { s.status with ovr := true }

end Sys2Proof.Machine
end

