-- ==== Sys2Proof/Machine/Chain.lean ====
section
/-! DEFINITION. Records and chains: the address/length splitter and linker (40_chain_builder.md). -/

namespace Sys2Proof.Machine

/-- A descriptor record (40_chain_builder.md R62, 30_encoding.md R54). The `next` link is the position
in the chain (R63). -/
structure Record where
  /-- The `attribute` field (R62). -/
  attr : Byte
  /-- The `reserved` field: always zero in a record the block emits. -/
  reserved : Byte
  /-- The `length` field: the segment's length in bytes. -/
  length : Half
  /-- The `address` field: the segment's start address. -/
  address : Word
deriving DecidableEq, Repr

/-- The actions that have a name (30_encoding.md R56). -/
inductive Action where
  /-- TRANSFER, 0b10: data segment. -/
  | transfer
  /-- LINK, 0b11: pointer to another table. Never emitted. -/
  | link
deriving DecidableEq, Repr

/-- The ACT number of an action (30_encoding.md R56). -/
def Action.code : Action → BitVec 2
  | .transfer => 0b10
  | .link => 0b11

/-- The attribute byte: bit 0 VALID, bit 1 END, bit 2 INT, bits 5:4 ACT, bits 3, 6 and 7 zero
(30_encoding.md R55). -/
def attrByte (valid last int : Bool) (act : Action) : Byte :=
  0#2 ++ act.code ++ 0#1 ++ BitVec.ofBool int ++ BitVec.ofBool last ++ BitVec.ofBool valid

/-- ATTR_MID: VALID and TRANSFER (30_encoding.md R57). -/
def attrMid : Byte := attrByte true false false .transfer

/-- ATTR_END: VALID, END and TRANSFER (30_encoding.md R57). -/
def attrEnd : Byte := attrByte true true false .transfer

/-- VALID, attribute bit 0 (30_encoding.md R59). -/
def Record.validBit (r : Record) : Bool := r.attr.getLsbD 0

/-- END, attribute bit 1 (30_encoding.md R59). -/
def Record.endBit (r : Record) : Bool := r.attr.getLsbD 1

/-- INT, attribute bit 2 (30_encoding.md R59). -/
def Record.intBit (r : Record) : Bool := r.attr.getLsbD 2

/-- ACT, attribute bits 5:4 with bit 5 high (30_encoding.md R56, R59). -/
def Record.act (r : Record) : BitVec 2 := r.attr.extractLsb' 4 2

/-- The action a record asks for. The spec gives ACT 0b00 and 0b01 no meaning: none
(30_encoding.md R56, 93_implementation_defined.md). -/
def Record.action (r : Record) : Option Action :=
  if r.act = Action.transfer.code then some .transfer
  else if r.act = Action.link.code then some .link
  else none

/-- The builder's loop (40_chain_builder.md R64), from the cursor `cur` with `rem` bytes left, for at
most `fuel` iterations. -/
def buildLoop : Nat → Nat → Nat → List Record
  | 0, _, _ => []
  | fuel + 1, cur, rem =>
    if rem = 0 then []
    else if rem ≤ Config.maxSeg then
      [⟨attrEnd, 0, BitVec.ofNat 16 rem, BitVec.ofNat 32 cur⟩]
    else
      ⟨attrMid, 0, BitVec.ofNat 16 Config.maxSeg, BitVec.ofNat 32 cur⟩
        :: buildLoop fuel (cur + Config.maxSeg) (rem - Config.maxSeg)

/-- `BuildRef(A, L)` (40_chain_builder.md R64). Its loop runs ceil_div(L, MAX_SEG) times (R77). Outside
its domain it has no meaning: none (R66). -/
def buildRef (a l : Word) : Option (List Record) :=
  if l.toNat = 0 ∨ a.toNat + l.toNat ≤ Config.addrSpace then
    some (buildLoop (ceilDiv l.toNat Config.maxSeg) a.toNat l.toNat)
  else none

/-- The chain state that BUILD latches for A and L (42_host_commands.md R93). -/
def latchChain (a l : Word) : ChainState where
  valid := true
  addr := a
  len := l
  count := BitVec.ofNat 32 (ceilDiv l.toNat Config.maxSeg)
  last := BitVec.ofNat 16
    (l.toNat - Config.maxSeg * (ceilDiv l.toNat Config.maxSeg - 1))

/-- `Chain(st)`: the records the block holds (10_state.md R20). -/
def heldChain (s : State) : List Record :=
  if s.chain.valid then (buildRef s.chain.addr s.chain.len).getD [] else []

/-- Record `i` of the held chain, for i < CH_COUNT (10_state.md R25, 42_host_commands.md R97). -/
def recordAt (s : State) (i : Nat) : Option Record :=
  if s.chain.valid = true ∧ i < s.chain.count.toNat then (heldChain s)[i]? else none

end Sys2Proof.Machine
end

