-- ==== Sys2Proof/Machine/Commands.lean ====
section
/-! DEFINITION. The commands' meanings (42_host_commands.md R91 to R96). -/

namespace Sys2Proof.Machine

/-- Command dispatch around a command's body (42_host_commands.md R91): while BUSY the command is
dropped; otherwise it is accepted, which clears DONE, OVR and ERR, and its body runs. -/
def issue (body : State → CmdEnd) (s : State) : Host.Outcome State Fault Refusal :=
  match s.engine.phase with
  | .ser => .next (dropCommand s)
  | .idle => .next (body (clearStatus s)).state

/-- The body of BUILD (R93): the old chain is discarded before the checks. -/
def buildBody (s : State) : CmdEnd :=
  let t := s.withChain ChainState.empty
  if s.regs.srcLen.toNat = 0 then raiseErr .zeroLen t
  else if s.regs.srcAddr.toNat + s.regs.srcLen.toNat > Config.addrSpace then raiseErr .srcOvf t
  else .done (t.withChain (latchChain s.regs.srcAddr s.regs.srcLen))

/-- The body of SERIALIZE (R94): four checks in order, then the engine is started. -/
def serializeBody (s : State) : CmdEnd :=
  let base := s.regs.tblBase.toNat
  let bytes := Config.recSize * s.chain.count.toNat
  if s.chain.valid = false then raiseErr .noChain s
  else if base % 8 ≠ 0 then raiseErr .tblAlign s
  else if s.regs.tblCap.toNat < bytes then raiseErr .tblSmall s
  else if base + bytes > Config.addrSpace then raiseErr .tblOvf s
  else .done (s.withEngine ⟨.ser, 0, s.regs.tblBase, 0⟩)

/-- The body of BUILD_SERIALIZE (R95): BUILD, then SERIALIZE only if BUILD raised nothing. -/
def buildSerializeBody (s : State) : CmdEnd :=
  match buildBody s with
  | .raised t => .raised t
  | .done t => serializeBody t

/-- The body of DISCARD (R96): the chain is emptied; SER_IDX stays (notes/assumptions/9.md). -/
def discardBody (s : State) : CmdEnd := .done (s.withChain ChainState.empty)

/-- NOP (R92): only the status clearing of dispatch takes effect. -/
def execNop (s : State) : Host.Outcome State Fault Refusal := issue .done s

/-- BUILD (R93). -/
def execBuild (s : State) : Host.Outcome State Fault Refusal := issue buildBody s

/-- SERIALIZE (R94). -/
def execSerialize (s : State) : Host.Outcome State Fault Refusal := issue serializeBody s

/-- BUILD_SERIALIZE (R95). -/
def execBuildSerialize (s : State) : Host.Outcome State Fault Refusal := issue buildSerializeBody s

/-- DISCARD (R96). -/
def execDiscard (s : State) : Host.Outcome State Fault Refusal := issue discardBody s

/-- An illegal command word (30_encoding.md R52): while idle a command that fails with ERR_BAD_CMD
(60_exceptions.md R107), while BUSY dropped like any other (R111). -/
def illegalCommand (s : State) : Host.Outcome State Fault Refusal := issue (raiseErr .badCmd) s

end Sys2Proof.Machine
end

