-- ==== Sys2Proof/Machine/Dispatch.lean ====
section
/-! DEFINITION. One arm per command. -/

namespace Sys2Proof.Machine

def exec (i : Instr) (s : State) : Host.Outcome State Fault Refusal :=
  match i with
  | .nop => Sys2Proof.Machine.execNop s
  | .build => Sys2Proof.Machine.execBuild s
  | .serialize => Sys2Proof.Machine.execSerialize s
  | .buildSerialize => Sys2Proof.Machine.execBuildSerialize s
  | .discard => Sys2Proof.Machine.execDiscard s

end Sys2Proof.Machine
end

