-- ==== Sys2Proof/Machine/Packer.lean ====
section
/-! DEFINITION. The record formatter, the linked-record packer and its inverse
(41_record_serializer.md). -/

namespace Sys2Proof.Machine

/-- FormatRecord (R79): the 8 bytes of a record, little-endian. -/
def formatRecord (r : Record) : List Byte :=
  [r.attr, r.reserved] ++ leBytes 2 r.length.toNat ++ leBytes 4 r.address.toNat

/-- Rec64 (R80): the record as one number. -/
def rec64 (r : Record) : DWord := r.address ++ r.length ++ r.reserved ++ r.attr

/-- Word0 (R80): bytes 0 .. 3. -/
def word0 (r : Record) : Word := (rec64 r).extractLsb' 0 32

/-- Word1 (R80): bytes 4 .. 7. -/
def word1 (r : Record) : Word := (rec64 r).extractLsb' 32 32

/-- Serialize (R81): the records' bytes from head to tail, and nothing more (R83). -/
def serialize (c : List Record) : List Byte := c.flatMap formatRecord

/-- Dec (R86, 30_encoding.md R59): the fields of 8 bytes. -/
def decRecord (b0 b1 b2 b3 b4 b5 b6 b7 : Byte) : Record where
  attr := b0
  reserved := b1
  length := BitVec.ofNat 16 (fromLE [b2, b3])
  address := BitVec.ofNat 32 (fromLE [b4, b5, b6, b7])

/-- Parse (R86): none when the length is no multiple of 8. -/
def parse : List Byte → Option (List Record)
  | [] => some []
  | b0 :: b1 :: b2 :: b3 :: b4 :: b5 :: b6 :: b7 :: rest =>
    match parse rest with
    | some c => some (decRecord b0 b1 b2 b3 b4 b5 b6 b7 :: c)
    | none => none
  | _ => none

/-- Table(st) (R88). -/
def table (s : State) : List Byte := serialize (heldChain s)

end Sys2Proof.Machine
end

