-- ==== Sys2Proof/Machine/Engine.lean ====
section
/-! DEFINITION. The engine's turn (42_host_commands.md R97). -/

namespace Sys2Proof.Machine

/-- What the engine can do at its turn. -/
inductive EngineTurn where
  /-- PHASE = IDLE: it is not enabled. -/
  | disabled
  /-- There is no record SER_IDX; no state a run reaches (notes/assumptions/13.md). -/
  | noRecord
  /-- The table overlaps a register window (70_reset_and_hazards.md R127; notes/assumptions/11.md). -/
  | overlapsWindow
  /-- `Mem` does not admit the write: it stays stuck (42_host_commands.md R97). -/
  | stuck
  /-- It writes record `r` at address `a`. -/
  | write (a : Nat) (r : Record)
deriving DecidableEq, Repr

/-- The address of the record to be written next, SER_BASE + 8*SER_IDX (20_memory.md R32). -/
def nextRecordAddr (s : State) : Nat :=
  s.engine.serBase.toNat + Config.recSize * s.engine.serIdx.toNat

/-- What the engine can do in state `s` (42_host_commands.md R97). -/
def engineTurn (s : State) : EngineTurn :=
  match s.engine.phase with
  | .idle => .disabled
  | .ser =>
    match recordAt s s.engine.serIdx.toNat with
    | none => .noRecord
    | some r =>
      if touchesAnyWindow s.platform s.engine.serBase.toNat (Config.recSize * s.chain.count.toNat) then
        .overlapsWindow
      else if admitsStore s.platform (nextRecordAddr s) Config.recSize then
        .write (nextRecordAddr s) r
      else .stuck

/-- The engine's registers and DONE after record SER_IDX is written: the last record ends the
serialization in the same step (42_host_commands.md R97, 20_memory.md R43). -/
def advanceEngine (s : State) : State :=
  let i := s.engine.serIdx.toNat + 1
  if i = s.chain.count.toNat then
    (s.withEngine { s.engine with
        phase := .idle, serIdx := BitVec.ofNat 32 i, bytesOut := BitVec.ofNat 32 (Config.recSize * i) }).withStatus
      { s.status with done := true }
  else
    s.withEngine { s.engine with
      serIdx := BitVec.ofNat 32 i, bytesOut := BitVec.ofNat 32 (Config.recSize * i) }

/-- The engine's turn (42_host_commands.md R97): one `MemWrite` of 8 bytes. Not enabled, or stuck, it
changes nothing (notes/assumptions/6.md). -/
def engineStep (s : State) : Host.Outcome State Fault Refusal :=
  match engineTurn s with
  | .disabled => .next s
  | .noRecord => .next s
  | .stuck => .next s
  | .overlapsWindow => .refused .tableOverlapsWindow
  | .write a r => .next (advanceEngine (s.withMem (memWrite s.mem a Config.recSize (rec64 r).toNat)))

/-- Whether the engine has a step: PHASE = SER and its write is not refused by `Mem`. -/
def canStep (s : State) : Bool :=
  match engineTurn s with
  | .disabled => false
  | .noRecord => false
  | .stuck => false
  | .overlapsWindow => true
  | .write _ _ => true

/-- The first instance whose engine has a step. -/
def nextEngine (s : State) : Option Nat :=
  (List.range s.instances).find? fun k => canStep (s.focus k)

/-- What happens when no access waits: an engine that has a step takes it, the first one if there are
several (70_reset_and_hazards.md R132; notes/assumptions/2.md). -/
def engineMove (s : State) : Host.Outcome State Fault Refusal :=
  match nextEngine s with
  | some k => onInstance k engineStep s
  | none => .next s

end Sys2Proof.Machine
end

