-- ==== Sys2Proof/Machine/Flags.lean ====
section
/-! DEFINITION. The status flags and the STATUS word (10_state.md R24, R25, 30_encoding.md R49,
60_exceptions.md R100). -/

namespace Sys2Proof.Machine

/-- The 4-bit number of an error (60_exceptions.md R100). -/
def ErrCode.code : ErrCode → BitVec 4
  | .none => 0
  | .zeroLen => 1
  | .srcOvf => 2
  | .noChain => 3
  | .tblAlign => 4
  | .tblSmall => 5
  | .tblOvf => 6
  | .badCmd => 7

/-- BUSY: PHASE = SER (30_encoding.md R49). -/
def busy (s : State) : Bool := decide (s.engine.phase = .ser)

/-- STATUS, as read: bit 0 BUSY, bit 1 CHAIN, bit 2 DONE, bit 3 OVR, bits 7:4 ERR, bits 31:8 zero
(10_state.md R25). -/
def statusWord (s : State) : Word :=
  0#24 ++ s.status.err.code ++ BitVec.ofBool s.status.ovr ++ BitVec.ofBool s.status.done
    ++ BitVec.ofBool s.chain.valid ++ BitVec.ofBool (busy s)

end Sys2Proof.Machine
end

