-- ==== Sys2Proof/Machine/Operands.lean ====
section
/-! DEFINITION. The register map (30_encoding.md R47): names, offsets and the configuration registers,
which are the commands' only operands (R50). -/

namespace Sys2Proof.Machine

/-- The registers of the window (30_encoding.md R47). -/
inductive Reg where
  | srcAddr
  | srcLen
  | tblBase
  | tblCap
  | cmd
  | status
  | recCount
  | lastLen
  | recIndex
  | recWord0
  | recWord1
  | bytesOut
  /-- The unmapped offsets 0x30 .. 0x3C (R48). -/
  | unmapped
deriving DecidableEq, Repr

/-- The register at an offset of the window (R47). -/
def regAt : Nat → Reg
  | 0x00 => .srcAddr
  | 0x04 => .srcLen
  | 0x08 => .tblBase
  | 0x0C => .tblCap
  | 0x10 => .cmd
  | 0x14 => .status
  | 0x18 => .recCount
  | 0x1C => .lastLen
  | 0x20 => .recIndex
  | 0x24 => .recWord0
  | 0x28 => .recWord1
  | 0x2C => .bytesOut
  | _ => .unmapped

/-- The offset of a register (R47); the first of the four unmapped ones. -/
def regOffset : Reg → Nat
  | .srcAddr => 0x00
  | .srcLen => 0x04
  | .tblBase => 0x08
  | .tblCap => 0x0C
  | .cmd => 0x10
  | .status => 0x14
  | .recCount => 0x18
  | .lastLen => 0x1C
  | .recIndex => 0x20
  | .recWord0 => 0x24
  | .recWord1 => 0x28
  | .bytesOut => 0x2C
  | .unmapped => 0x30

/-- The physical address REG_BASE + off (20_memory.md R30). -/
def windowAddr (p : Platform) (off : Nat) : Word := BitVec.ofNat 32 (regBase p + off)

/-- Store into a configuration register; no other register is touched (10_state.md R17, 20_memory.md
R40). The registers that are no configuration registers keep no value of their own. -/
def Regs.put (g : Regs) (r : Reg) (v : Word) : Regs :=
  match r with
  | .srcAddr => { g with srcAddr := v }
  | .srcLen => { g with srcLen := v }
  | .tblBase => { g with tblBase := v }
  | .tblCap => { g with tblCap := v }
  | .recIndex => { g with recIndex := v }
  | .cmd => g
  | .status => g
  | .recCount => g
  | .lastLen => g
  | .recWord0 => g
  | .recWord1 => g
  | .bytesOut => g
  | .unmapped => g

end Sys2Proof.Machine
end

