-- ==== Sys2Proof/Machine/Bus.lean ====
section
/-! DEFINITION. The accesses of the agents outside the block (42_host_commands.md R89, R90, 20_memory.md
R38, R39) and reset (70_reset_and_hazards.md R122). -/

namespace Sys2Proof.Machine

/-- `Command(w)` (42_host_commands.md R91). A legal word runs its command, any other fails; `issue` drops
either while BUSY, whatever the word is (DEDUCED, notes/assumptions/16.md). -/
def commandWrite (w : Word) (s : State) : Host.Outcome State Fault Refusal :=
  match decode w with
  | .ok i => exec i s
  | .error _ => illegalCommand s

/-- `WR(off, v)` on the register at that offset (42_host_commands.md R89): read-only and unmapped
registers ignore it. -/
def writeReg (r : Reg) (v : Word) (s : State) : Host.Outcome State Fault Refusal :=
  match r with
  | .cmd => commandWrite v s
  | _ => .next (s.withRegs (s.regs.put r v))

/-- Word0 or Word1 of the record that REC_INDEX selects, 0 when there is none (10_state.md R25). -/
def readback (word : Record → Word) (s : State) : Word :=
  match recordAt s s.regs.recIndex.toNat with
  | some r => word r
  | none => 0

/-- `RD(off)` on the register at that offset (42_host_commands.md R90, 10_state.md R25, R26,
30_encoding.md R48). -/
def readReg (r : Reg) (s : State) : Word :=
  match r with
  | .srcAddr => s.regs.srcAddr
  | .srcLen => s.regs.srcLen
  | .tblBase => s.regs.tblBase
  | .tblCap => s.regs.tblCap
  | .cmd => 0
  | .status => statusWord s
  | .recCount => s.chain.count
  | .lastLen => s.chain.last.setWidth 32
  | .recIndex => s.regs.recIndex
  | .recWord0 => readback word0 s
  | .recWord1 => readback word1 s
  | .bytesOut => s.engine.bytesOut
  | .unmapped => 0

/-- The byte of instance 0's record in flight at `x` where bit k of `mask` is 1 for its byte k; `old`
everywhere else (20_memory.md R39). -/
def flightByte (mask : BitVec 8) (s : State) (x : Nat) (old : Option Byte) : Option Byte :=
  match engineTurn s with
  | .write a r =>
    if a ≤ x ∧ x < a + Config.recSize ∧ mask.getLsbD (x - a) = true then (formatRecord r)[x - a]? else old
  | _ => old

/-- The byte at `x` as memory and the first `k` instances show it. -/
def seenByteUpTo (s : State) (x : Nat) : Nat → Option Byte
  | 0 => memGet s.mem x
  | k + 1 => flightByte (Config.freeMask (s.draws + k)) (s.focus k) x (seenByteUpTo s x k)

/-- The byte an agent's load meets at address `x` of memory. A byte of a record that an engine is writing
is the new or the old one, freely; every other byte is what memory holds (20_memory.md R39). -/
def seenByte (s : State) (x : Nat) : Option Byte := seenByteUpTo s x s.instances

/-- The bytes an agent's load meets from address `x` on; none if nothing wrote one of them. -/
def seenBytes (s : State) : Nat → Nat → Option (List Byte)
  | _, 0 => some []
  | x, n + 1 =>
    match seenByte s x, seenBytes s (x + 1) n with
    | some b, some bs => some (b :: bs)
    | _, _ => none

/-- The draws taken once a free value was used: one for each instance. -/
def nextDraws (s : State) : Nat := s.draws + s.instances

/-- Whether an access at `a` is an aligned 32-bit access (20_memory.md R38). -/
def isRegAccess (a : Word) (z : Size) : Bool := decide (z = .word ∧ a.toNat % 4 = 0)

/-- `WR` at an address of instance 0's window (42_host_commands.md R89). -/
def windowStore (a : Word) (v : DWord) (s : State) : Host.Outcome State Fault Refusal :=
  writeReg (regAt (a.toNat - regBase s.platform)) (v.setWidth 32) s

/-- `RD` at an address of instance 0's window (42_host_commands.md R90). Only what it returns changes. -/
def windowLoad (a : Word) (s : State) : Host.Outcome State Fault Refusal :=
  .next (s.withLastRead (some ((readReg (regAt (a.toNat - regBase s.platform)) s).setWidth 64)))

/-- A store by an agent. In an instance's window it is `WR` on that instance (42_host_commands.md R89), or
refused (20_memory.md R38); elsewhere it writes memory, little-endian, if the platform admits it
(notes/assumptions/5.md). An access of n bytes takes the low n bytes of `v` (notes/assumptions/15.md). -/
def busStore (a : Word) (z : Size) (v : DWord) (s : State) : Host.Outcome State Fault Refusal :=
  match windowOf s.platform a.toNat z.bytes with
  | some k =>
    if isRegAccess a z then onInstance k (windowStore a v) s else .refused (.badAccess a z)
  | none =>
    if admitsStore s.platform a.toNat z.bytes then
      .next (s.withMem (memWrite s.mem a.toNat z.bytes v.toNat))
    else .fault (.busError a)

/-- A load by an agent. In an instance's window it is `RD` on that instance (42_host_commands.md R90), or
refused (20_memory.md R38); elsewhere it reads memory, little-endian (20_memory.md R34). Only what it
returns changes (notes/assumptions/5.md). -/
def busLoad (a : Word) (z : Size) (s : State) : Host.Outcome State Fault Refusal :=
  match windowOf s.platform a.toNat z.bytes with
  | some k => if isRegAccess a z then onInstance k (windowLoad a) s else .refused (.badAccess a z)
  | none =>
    if admitsLoad s.platform a.toNat z.bytes then
      match seenBytes s a.toNat z.bytes with
      | some bs =>
        .next ((s.withLastRead (some (BitVec.ofNat 64 (fromLE bs)))).withDraws (nextDraws s))
      | none => .fault (.unwritten a)
    else .fault (.busError a)

/-- Memory after a reset: it writes nothing, but a record the engine was writing may be there or not,
byte by byte (70_reset_and_hazards.md R122, 93_implementation_defined.md; DEDUCED,
notes/assumptions/8.md). -/
def memAfterReset (s : State) : Memory :=
  match engineTurn s with
  | .write a r => memPutMasked (Config.freeMask s.draws) s.mem a 0 (formatRecord r)
  | _ => s.mem

/-- Reset of instance 0 (70_reset_and_hazards.md R122): its state takes the values of 10_state.md R28; the
other instances and the world around them stay (notes/assumptions/8.md). -/
def resetBlock (s : State) : State :=
  ((s.withBlock Block.atReset).withMem (memAfterReset s)).withDraws (nextDraws s)

/-- What one input does. -/
def runInput (i : Input) (s : State) : Host.Outcome State Fault Refusal :=
  match i with
  | .store a z v => busStore a z v s
  | .load a z => busLoad a z s
  | .engine k => onInstance k engineStep s
  | .reset k => onInstance k (fun u => .next (resetBlock u)) s

end Sys2Proof.Machine
end

