-- ==== Sys2Proof/Machine/HostLines.lean ====
section
/-! DEFINITION. The host's line language of the spec's examples (30_encoding.md R60, R61): what each line
puts on the bus. It is the host's, not the block's. -/

namespace Sys2Proof.Machine

/-- One line of a host program (30_encoding.md R60, R61). -/
inductive HostLine where
  /-- `WR <REG>, <imm32>`. -/
  | wr (r : Reg) (v : Word)
  /-- `RD <REG>`. -/
  | rd (r : Reg)
  /-- `CMD <MNEMONIC>`. -/
  | cmd (i : Instr)
  /-- `POLL`, when the host's loop meets BUSY = 1 `rounds` times with one engine turn after each
  (notes/assumptions/14.md). -/
  | poll (rounds : Nat)
  /-- `RUN a, n, t, c`, with the rounds of its POLL. -/
  | run (a n t c : Word) (rounds : Nat)
deriving DecidableEq, Repr

/-- `WR` on instance 0 of `p`: a 32-bit store to REG_BASE + offset(REG) (R60). -/
def wrInput (p : Platform) (r : Reg) (v : Word) : Input :=
  .store (windowAddr p (regOffset r)) .word (v.setWidth 64)

/-- `RD` on instance 0 of `p`: a 32-bit load from REG_BASE + offset(REG) (R60). -/
def rdInput (p : Platform) (r : Reg) : Input := .load (windowAddr p (regOffset r)) .word

/-- `POLL` on instance `k`: reads of STATUS until one shows BUSY = 0 (R61). -/
def pollInputs (p : Platform) (k rounds : Nat) : List Input :=
  (List.replicate rounds [rdInput (p.focus k) .status, .engine k]).flatten ++
    [rdInput (p.focus k) .status]

/-- What a line for instance `k` puts on the bus of platform `p` (R60, R61). -/
def HostLine.inputs (p : Platform) (k : Nat) : HostLine → List Input
  | .wr r v => [wrInput (p.focus k) r v]
  | .rd r => [rdInput (p.focus k) r]
  | .cmd i => [wrInput (p.focus k) .cmd (encode i)]
  | .poll rounds => pollInputs p k rounds
  | .run a n t c rounds =>
    [wrInput (p.focus k) .srcAddr a, wrInput (p.focus k) .srcLen n, wrInput (p.focus k) .tblBase t,
      wrInput (p.focus k) .tblCap c, wrInput (p.focus k) .cmd (encode .buildSerialize)] ++
      pollInputs p k rounds ++ [rdInput (p.focus k) .status]

end Sys2Proof.Machine
end

