-- ==== Sys2Proof/Machine/Step.lean ====
section
/-! DEFINITION. One step of the machine (10_state.md R15): the next input, or an engine's turn when none
waits. -/

namespace Sys2Proof.Machine

/-- One step. The oldest input is taken; when none waits an engine has its turn, so an enabled engine
eventually steps (70_reset_and_hazards.md R132; notes/assumptions/1.md, notes/assumptions/2.md). -/
def step (s : State) : Host.Outcome State Fault Refusal :=
  match s.inputs with
  | [] => engineMove s
  | i :: rest => runInput i (s.withInputs rest)

/-- `s` with a host write of the word `w` to instance 0's CMD as the very next input: where this machine takes its next
command from (10_state.md R19, R26). A command word is 32 bits; the bits of `w` from `nbits` up are 0. -/
def State.withFetchWord (s : State) (nbits w : Nat) : State :=
  s.withInputs (wrInput s.platform .cmd (BitVec.ofNat 32 (w % 2 ^ nbits)) :: s.inputs)

end Sys2Proof.Machine
end

