-- ==== Sys2Proof/Safety.lean ====
section
/-! DEFINITION. What holds of every state a run reaches, and what the host owes for a serialization to
complete. -/

namespace Sys2Proof.Machine

/-- The chain state's invariant (10_state.md R21). -/
def ChainOk (c : ChainState) : Prop :=
  (c.valid = true →
    1 ≤ c.len.toNat ∧ c.addr.toNat + c.len.toNat ≤ Config.addrSpace ∧
    c.count.toNat = ceilDiv c.len.toNat Config.maxSeg ∧
    c.last.toNat = c.len.toNat - Config.maxSeg * (c.count.toNat - 1)) ∧
  (c.valid = false → c = ChainState.empty)

/-- The engine's invariant while a serialization is in progress (10_state.md R23, 42_host_commands.md
R94, R97; notes/assumptions/9.md). -/
def EngineOk (b : Block) : Prop :=
  b.engine.phase = .ser →
    b.chain.valid = true ∧ b.engine.serIdx.toNat < b.chain.count.toNat ∧
    b.engine.bytesOut.toNat = Config.recSize * b.engine.serIdx.toNat ∧
    b.engine.serBase.toNat % 8 = 0 ∧
    b.engine.serBase.toNat + Config.recSize * b.chain.count.toNat ≤ Config.addrSpace ∧
    b.status.done = false ∧ b.status.err = .none

/-- What DONE says (10_state.md R23, R24): a serialization of the held chain completed, with no error
since. -/
def DoneOk (b : Block) : Prop :=
  b.status.done = true →
    b.engine.phase = .idle ∧ b.status.err = .none ∧ b.chain.valid = true ∧
    b.engine.serIdx = b.chain.count ∧
    b.engine.bytesOut.toNat = Config.recSize * b.chain.count.toNat

/-- The invariant of one instance. -/
def BlockOk (b : Block) : Prop := ChainOk b.chain ∧ EngineOk b ∧ DoneOk b

/-- The invariant of every run: each instance's, as many instances as the platform has windows, and the
canonical form of memory. -/
def Inv (s : State) : Prop :=
  BlockOk s.block ∧ (∀ b ∈ s.others, BlockOk b) ∧
  s.others.length = s.platform.otherPages.length ∧ Memory.wf s.mem

/-- The bytes of memory from `a` on are `bs`. -/
def HoldsBytes (m : Memory) (a : Nat) (bs : List Byte) : Prop :=
  ∀ j, j < bs.length → memGet m (a + j) = bs[j]?

/-- What the host owes for the table at SER_BASE (70_reset_and_hazards.md R127, 42_host_commands.md R97):
it lies outside the register windows, in memory that admits stores. -/
def TableWritable (s : State) : Prop :=
  touchesAnyWindow s.platform s.engine.serBase.toNat (Config.recSize * s.chain.count.toNat) = false ∧
  admitsStore s.platform s.engine.serBase.toNat (Config.recSize * s.chain.count.toNat) = true

/-- How far the table is in memory (20_memory.md R43, 93_implementation_defined.md): the completed records
while a serialization runs, all of them once DONE is set. -/
def TableInMemory (s : State) : Prop :=
  (s.engine.phase = .ser →
    HoldsBytes s.mem s.engine.serBase.toNat ((table s).take (Config.recSize * s.engine.serIdx.toNat))) ∧
  (s.status.done = true → HoldsBytes s.mem s.engine.serBase.toNat (table s))

/-- What the hosts of the other instances owe (70_reset_and_hazards.md R127): no table still being written
overlaps the table of instance 0. -/
def TablesDisjoint (s : State) : Prop :=
  ∀ b ∈ s.others, b.engine.phase = .ser →
    b.engine.serBase.toNat + Config.recSize * b.chain.count.toNat ≤ s.engine.serBase.toNat ∨
    s.engine.serBase.toNat + Config.recSize * s.chain.count.toNat ≤ b.engine.serBase.toNat

/-- No serialization is in progress in any instance. -/
def AllIdle (s : State) : Prop := s.engine.phase = .idle ∧ ∀ b ∈ s.others, b.engine.phase = .idle

/-- Every instance has a register window of its own (60_exceptions.md R119). -/
def WindowsDistinct (p : Platform) : Prop := (p.regPage :: p.otherPages).Nodup

/-- Whether an input stores to a byte of the current table: something another agent must not do while the
table is in use (20_memory.md R43, 70_reset_and_hazards.md R128). -/
def storesToTable (s : State) (i : Input) : Prop :=
  match i with
  | .store a z _ =>
    a.toNat < s.engine.serBase.toNat + Config.recSize * s.chain.count.toNat ∧
    s.engine.serBase.toNat < a.toNat + z.bytes
  | _ => False

/-- The next input resets instance `k`. -/
def resetArrives (s : State) (k : Nat) : Prop := ∃ rest, s.inputs = .reset k :: rest

/-- The next input gives instance `k`'s engine its turn, or none waits, so that an engine may move. -/
def engineArrives (s : State) (k : Nat) : Prop :=
  s.inputs = [] ∨ ∃ rest, s.inputs = .engine k :: rest

/-- The next input is a 32-bit store at offset `off` of instance `k`'s register window. -/
def storeArrives (s : State) (k off : Nat) : Prop :=
  ∃ a v rest, s.inputs = .store a .word v :: rest ∧ a.toNat = regBase (s.platform.focus k) + off

/-- A step that neither faults nor is refused. -/
def SafeStep (s : State) : Prop := ∃ t, step s = .next t

end Sys2Proof.Machine
end

