-- ==== Sys2Proof/Certificates/Slice0/Obligations.lean ====
section
/-! DEFINITION. The statements for the provers. Each docstring names the rule of spec/ it formalises; a
clause that rests on a choice of the model names its log entry. -/

open Sys2Proof Sys2Proof.Machine

/-! ### Encodings -/

/-- 30_encoding.md R51, R52: a decoder selects a command by the whole 32-bit word, so a word decodes to a
command exactly when it is that command's word; and the words that decode to none are exactly those whose
RSVD is not 0 or whose OP is 0x5 to 0xF. -/
def Obligations.DecodeSelectsByTheWholeWord : Prop :=
  (∀ (w : Word) (i : Instr), i.wellFormed = true → (decode w = .ok i ↔ w = encode i)) ∧
  (∀ w : Word, (∃ i, decode w = .ok i) ↔ legalWord w = true) ∧
  (∀ w : Word, legalWord w = false ↔
    (w.extractLsb' 4 28 ≠ 0#28 ∨ 5 ≤ (w.extractLsb' 0 4).toNat))

/-- spec/opcode_table.json: the five words of the table decode to their rows, 0x5 and 0x10 to none. -/
def Obligations.TableWordsDecode : Prop :=
  decodeTableWord 32 0x00000000 = some .nop ∧ decodeTableWord 32 0x00000001 = some .build ∧
  decodeTableWord 32 0x00000002 = some .serialize ∧
  decodeTableWord 32 0x00000003 = some .buildSerialize ∧
  decodeTableWord 32 0x00000004 = some .discard ∧
  decodeTableWord 32 0x00000005 = none ∧ decodeTableWord 32 0x00000010 = none

/-- 41_record_serializer.md R80: the record as numbers, and what the readback port shows of it. -/
def Obligations.FormatRecordAsNumbers : Prop :=
  (∀ r : Record,
    formatRecord r = leBytes 8 (rec64 r).toNat ∧
    formatRecord r = leBytes 4 (word0 r).toNat ++ leBytes 4 (word1 r).toNat ∧
    rec64 r = r.attr.setWidth 64 ||| r.reserved.setWidth 64 <<< 8 ||| r.length.setWidth 64 <<< 16
      ||| r.address.setWidth 64 <<< 32 ∧
    word0 r = r.length ++ r.reserved ++ r.attr ∧ word1 r = r.address) ∧
  (∀ (s : State) (r : Record), recordAt s s.regs.recIndex.toNat = some r →
    readReg .recWord0 s = word0 r ∧ readReg .recWord1 s = word1 r) ∧
  (∀ (a l : Word) (ch : List Record) (r : Record), buildRef a l = some ch → r ∈ ch →
    r.reserved = 0 ∧ word0 r = r.attr.setWidth 32 ||| r.length.setWidth 32 <<< 16)

/-- 41_record_serializer.md R82. -/
def Obligations.SerializedLength : Prop :=
  ∀ ch : List Record, (serialize ch).length = 8 * ch.length

/-- 41_record_serializer.md R87: parsing a serialized chain gives the chain back, a built one in
particular, so serializing is injective. -/
def Obligations.ParseOfSerialize : Prop :=
  (∀ ch : List Record, parse (serialize ch) = some ch) ∧
  (∀ (a l : Word) (ch : List Record), buildRef a l = some ch → parse (serialize ch) = some ch) ∧
  (∀ ch d : List Record, serialize ch = serialize d → ch = d)

/-- 41_record_serializer.md R86: what parses is serialized back to the same bytes, and exactly the byte
sequences whose length is no multiple of 8 have no parse. -/
def Obligations.SerializeOfParse : Prop :=
  (∀ (bs : List Byte) (ch : List Record), parse bs = some ch → serialize ch = bs) ∧
  (∀ bs : List Byte, parse bs = none ↔ bs.length % 8 ≠ 0)

/-! ### The chain builder -/

/-- 40_chain_builder.md R65: the loop's closed form. -/
def Obligations.BuildClosedForm : Prop :=
  ∀ (a l : Word), 1 ≤ l.toNat → a.toNat + l.toNat ≤ Config.addrSpace →
    ∃ ch, buildRef a l = some ch ∧ ch.length = ceilDiv l.toNat Config.maxSeg ∧
      (∀ i, i < ch.length →
        ch[i]? = some
          { attr := if i + 1 = ch.length then 0x23 else 0x21
            reserved := 0x00
            length := BitVec.ofNat 16 (if i + 1 = ch.length then
              l.toNat - Config.maxSeg * (ch.length - 1) else Config.maxSeg)
            address := BitVec.ofNat 32 (a.toNat + Config.maxSeg * i) }) ∧
      1 ≤ l.toNat - Config.maxSeg * (ch.length - 1) ∧
      l.toNat - Config.maxSeg * (ch.length - 1) ≤ Config.maxSeg ∧
      (l.toNat % Config.maxSeg ≠ 0 →
        l.toNat - Config.maxSeg * (ch.length - 1) = l.toNat % Config.maxSeg) ∧
      (l.toNat % Config.maxSeg = 0 →
        l.toNat - Config.maxSeg * (ch.length - 1) = Config.maxSeg)

/-- 40_chain_builder.md R66: where BuildRef is defined, and that no segment leaves the address space. -/
def Obligations.BuildStaysInAddressSpace : Prop :=
  (∀ (a l : Word), buildRef a l = none ↔
    l.toNat ≠ 0 ∧ Config.addrSpace < a.toNat + l.toNat) ∧
  (∀ (a l : Word) (ch : List Record) (i : Nat) (r : Record),
    buildRef a l = some ch → ch[i]? = some r →
      r.address.toNat = a.toNat + Config.maxSeg * i ∧
      r.address.toNat + r.length.toNat ≤ a.toNat + l.toNat ∧
      r.address.toNat + r.length.toNat ≤ Config.addrSpace)

/-- 30_encoding.md R57: the two attribute bytes and the reserved byte. -/
def Obligations.EmittedAttributes : Prop :=
  attrMid = 0x21 ∧ attrEnd = 0x23 ∧
  ∀ (a l : Word) (ch : List Record) (i : Nat) (r : Record),
    buildRef a l = some ch → ch[i]? = some r →
      r.attr = (if i + 1 = ch.length then attrEnd else attrMid) ∧ r.reserved = 0x00

/-- 40_chain_builder.md R70. -/
def Obligations.OneEndAndItIsLast : Prop :=
  ∀ (a l : Word) (ch : List Record), 1 ≤ l.toNat → buildRef a l = some ch →
    ch ≠ [] ∧ ∀ (i : Nat) (r : Record), ch[i]? = some r → (r.endBit = true ↔ i + 1 = ch.length)

/-- 40_chain_builder.md R71. -/
def Obligations.NonTerminalRecords : Prop :=
  ∀ (a l : Word) (ch : List Record) (i : Nat) (r : Record), 1 ≤ l.toNat → buildRef a l = some ch →
    ch[i]? = some r → i + 1 < ch.length →
      r.action = some .transfer ∧ r.validBit = true ∧ r.length.toNat = Config.maxSeg

/-- 40_chain_builder.md R72. -/
def Obligations.TerminalRecord : Prop :=
  ∀ (a l : Word) (ch : List Record), 1 ≤ l.toNat → buildRef a l = some ch →
    ∃ r, ch.getLast? = some r ∧ r.validBit = true ∧ r.action = some .transfer ∧
      0 < r.length.toNat ∧ r.length.toNat ≤ Config.maxSeg

/-- 40_chain_builder.md R73. -/
def Obligations.LengthsSumToTotal : Prop :=
  ∀ (a l : Word) (ch : List Record), 1 ≤ l.toNat → buildRef a l = some ch →
    (ch.map (fun r => r.length.toNat)).sum = l.toNat

/-- 40_chain_builder.md R74. -/
def Obligations.AddressesContiguous : Prop :=
  ∀ (a l : Word) (ch : List Record) (i : Nat) (r : Record), 1 ≤ l.toNat → buildRef a l = some ch →
    ch[i]? = some r →
      r.address.toNat = a.toNat + ((ch.take i).map (fun q => q.length.toNat)).sum ∧
      r.address.toNat = a.toNat + Config.maxSeg * i

/-- 40_chain_builder.md R75. -/
def Obligations.ChainLength : Prop :=
  (∀ (a l : Word) (ch : List Record), 1 ≤ l.toNat → buildRef a l = some ch →
    ch.length = ceilDiv l.toNat Config.maxSeg ∧ 1 ≤ ch.length ∧
    (l.toNat ≤ Config.maxSeg → ch.length = 1) ∧
    (l.toNat = 65532 → ch.length = 1) ∧
    (l.toNat = 65533 → ch.length = 2 ∧ ch.map (fun r => r.length.toNat) = [65532, 1])) ∧
  (∀ a : Word, buildRef a 0 = some [])

/-- 40_chain_builder.md R76. -/
def Obligations.UnusedBitsAreZero : Prop :=
  ∀ (a l : Word) (ch : List Record) (r : Record), 1 ≤ l.toNat → buildRef a l = some ch → r ∈ ch →
    r.intBit = false ∧ r.attr.getLsbD 3 = false ∧ r.attr.getLsbD 6 = false ∧
    r.attr.getLsbD 7 = false ∧ r.reserved = 0x00

/-! ### The commands -/

/-- 42_host_commands.md R92: NOP. -/
def Obligations.NopClearsStatusOnly : Prop :=
  encode .nop = 0x00000000 ∧
  ∀ s : State,
    (s.engine.phase = .idle → exec .nop s = .next (s.withStatus ⟨false, false, .none⟩)) ∧
    (s.engine.phase = .ser → exec .nop s = .next (s.withStatus { s.status with ovr := true })) ∧
    (∀ t, exec .nop s = .next t → busy t = busy s ∧ t.chain.valid = s.chain.valid) ∧
    (statusWord s = 0x00000052 → ∃ t, exec .nop s = .next t ∧ statusWord t = 0x00000002)

/-- 42_host_commands.md R93: BUILD of a legal request latches the chain, and the chain held is
BuildRef(A, L). -/
def Obligations.BuildLatchesTheChain : Prop :=
  ∀ s : State, s.engine.phase = .idle → 1 ≤ s.regs.srcLen.toNat →
    s.regs.srcAddr.toNat + s.regs.srcLen.toNat ≤ Config.addrSpace →
    ∃ t, exec .build s = .next t ∧
      t = (s.withStatus ⟨false, false, .none⟩).withChain t.chain ∧
      t.chain.valid = true ∧ t.chain.addr = s.regs.srcAddr ∧ t.chain.len = s.regs.srcLen ∧
      t.chain.count.toNat = ceilDiv s.regs.srcLen.toNat 65532 ∧
      t.chain.last.toNat =
        s.regs.srcLen.toNat - 65532 * (ceilDiv s.regs.srcLen.toNat 65532 - 1) ∧
      buildRef s.regs.srcAddr s.regs.srcLen = some (heldChain t) ∧
      statusWord t = 0x00000002

/-- 60_exceptions.md R101: a zero length, in BUILD and in the first half of BUILD_SERIALIZE. -/
def Obligations.ZeroLengthRejected : Prop :=
  ∀ s : State, s.engine.phase = .idle → s.regs.srcLen = 0 →
    ∃ t, exec .build s = .next t ∧ exec .buildSerialize s = .next t ∧
      t = (s.withChain ⟨false, 0, 0, 0, 0⟩).withStatus ⟨false, false, .zeroLen⟩ ∧
      t.status.err.code = 1 ∧ heldChain t = [] ∧ t.mem = s.mem ∧ t.engine.phase = .idle

/-- 60_exceptions.md R102: a source range past the top of the address space, in BUILD and in the first
half of BUILD_SERIALIZE; a range that ends at the top is accepted. -/
def Obligations.SourceOverflowRejected : Prop :=
  ∀ s : State, s.engine.phase = .idle → 1 ≤ s.regs.srcLen.toNat →
    (4294967296 < s.regs.srcAddr.toNat + s.regs.srcLen.toNat →
      ∃ t, exec .build s = .next t ∧ exec .buildSerialize s = .next t ∧
        t = (s.withChain ⟨false, 0, 0, 0, 0⟩).withStatus ⟨false, false, .srcOvf⟩ ∧
        t.status.err.code = 2 ∧ heldChain t = []) ∧
    (4294967296 < s.regs.srcAddr.toNat + s.regs.srcLen.toNat ↔
      4294967295 < s.regs.srcAddr.toNat + s.regs.srcLen.toNat - 1) ∧
    (s.regs.srcAddr.toNat + s.regs.srcLen.toNat = 4294967296 →
      ∃ t, exec .build s = .next t ∧ t.status.err = .none ∧ t.chain.valid = true)

/-- 60_exceptions.md R103: SERIALIZE with no chain, as after reset, after DISCARD and after a failed
BUILD. -/
def Obligations.NoChainRejected : Prop :=
  (∀ s : State, s.engine.phase = .idle → s.chain.valid = false →
    exec .serialize s = .next (s.withStatus ⟨false, false, .noChain⟩)) ∧
  ErrCode.code .noChain = 3 ∧ serialize [] = [] ∧
  (∀ p : Platform, (State.resetOn p).engine.phase = .idle ∧ (State.resetOn p).chain.valid = false) ∧
  (∀ s t : State, s.engine.phase = .idle → exec .discard s = .next t →
    t.engine.phase = .idle ∧ t.chain.valid = false) ∧
  (∀ s t : State, s.engine.phase = .idle → exec .build s = .next t → t.status.err ≠ .none →
    t.engine.phase = .idle ∧ t.chain.valid = false)

/-- 60_exceptions.md R104: SERIALIZE to a base that is no multiple of 8. -/
def Obligations.MisalignedTableRejected : Prop :=
  ErrCode.code .tblAlign = 4 ∧
  ∀ s : State, s.engine.phase = .idle → s.chain.valid = true → s.regs.tblBase.toNat % 8 ≠ 0 →
    exec .serialize s = .next (s.withStatus ⟨false, false, .tblAlign⟩)

/-- 60_exceptions.md R105: SERIALIZE into a buffer that is too small; REC_COUNT tells the host the
count. -/
def Obligations.SmallTableRejected : Prop :=
  ErrCode.code .tblSmall = 5 ∧
  ∀ s : State, s.engine.phase = .idle → s.chain.valid = true → s.regs.tblBase.toNat % 8 = 0 →
    s.regs.tblCap.toNat < 8 * s.chain.count.toNat →
    exec .serialize s = .next (s.withStatus ⟨false, false, .tblSmall⟩) ∧
    readReg .recCount s = s.chain.count

/-- 60_exceptions.md R106: SERIALIZE to a table that passes the top of the address space. -/
def Obligations.TableOverflowRejected : Prop :=
  ErrCode.code .tblOvf = 6 ∧
  ∀ s : State, s.engine.phase = .idle → s.chain.valid = true → s.regs.tblBase.toNat % 8 = 0 →
    8 * s.chain.count.toNat ≤ s.regs.tblCap.toNat →
    4294967296 < s.regs.tblBase.toNat + 8 * s.chain.count.toNat →
    exec .serialize s = .next (s.withStatus ⟨false, false, .tblOvf⟩)

/-- 42_host_commands.md R94: SERIALIZE with every check passed starts the engine; the table may end
exactly at the top of the address space and the buffer may be exactly large enough. -/
def Obligations.SerializeStartsTheEngine : Prop :=
  ∀ s : State, s.engine.phase = .idle → s.chain.valid = true → s.regs.tblBase.toNat % 8 = 0 →
    8 * s.chain.count.toNat ≤ s.regs.tblCap.toNat →
    s.regs.tblBase.toNat + 8 * s.chain.count.toNat ≤ 4294967296 →
    exec .serialize s =
      .next ((s.withStatus ⟨false, false, .none⟩).withEngine ⟨.ser, 0, s.regs.tblBase, 0⟩)

/-- 42_host_commands.md R95: BUILD_SERIALIZE of a legal request into a legal table builds the chain and
starts the engine. -/
def Obligations.BuildSerializeStartsTheEngine : Prop :=
  ∀ s : State, s.engine.phase = .idle → 1 ≤ s.regs.srcLen.toNat →
    s.regs.srcAddr.toNat + s.regs.srcLen.toNat ≤ 4294967296 →
    s.regs.tblBase.toNat % 8 = 0 →
    8 * ceilDiv s.regs.srcLen.toNat 65532 ≤ s.regs.tblCap.toNat →
    s.regs.tblBase.toNat + 8 * ceilDiv s.regs.srcLen.toNat 65532 ≤ 4294967296 →
    ∃ t, exec .buildSerialize s = .next t ∧
      t = ((s.withStatus ⟨false, false, .none⟩).withChain t.chain).withEngine
        ⟨.ser, 0, s.regs.tblBase, 0⟩ ∧
      buildRef s.regs.srcAddr s.regs.srcLen = some (heldChain t) ∧
      t.chain.count.toNat = ceilDiv s.regs.srcLen.toNat 65532 ∧ ChainOk t.chain ∧
      statusWord t = 0x00000003

/-- 42_host_commands.md R95: BUILD_SERIALIZE is BUILD, then SERIALIZE only if BUILD raised nothing. -/
def Obligations.BuildSerializeIsTheComposition : Prop :=
  ∀ s : State, s.engine.phase = .idle →
    ∃ t, exec .build s = .next t ∧
      (t.status.err = .none → exec .buildSerialize s = exec .serialize t) ∧
      (t.status.err ≠ .none → exec .buildSerialize s = .next t) ∧
      (∀ u, exec .buildSerialize s = .next u → u.status.err ≠ .noChain)

/-- 42_host_commands.md R96: DISCARD. -/
def Obligations.DiscardEmptiesTheChain : Prop :=
  encode .discard = 0x00000004 ∧
  ∀ s : State,
    (s.engine.phase = .idle →
      ∃ t, exec .discard s = .next t ∧
        t = (s.withChain ⟨false, 0, 0, 0, 0⟩).withStatus ⟨false, false, .none⟩ ∧
        t.mem = s.mem ∧ readReg .recCount t = 0 ∧ readReg .lastLen t = 0 ∧ statusWord t = 0 ∧
        (s.chain = ⟨false, 0, 0, 0, 0⟩ → t = s.withStatus ⟨false, false, .none⟩)) ∧
    (s.engine.phase = .ser →
      exec .discard s = .next (s.withStatus { s.status with ovr := true }))

/-- 60_exceptions.md R107: an illegal word written to CMD while idle. -/
def Obligations.IllegalWordFails : Prop :=
  ErrCode.code .badCmd = 7 ∧
  ∀ (s : State) (v : Word) (rest : List Input), s.engine.phase = .idle →
    s.inputs = wrInput s.platform .cmd v :: rest →
    (v.extractLsb' 4 28 ≠ 0#28 ∨ 5 ≤ (v.extractLsb' 0 4).toNat) →
    step s = .next ((s.withInputs rest).withStatus ⟨false, false, .badCmd⟩)

/-- 60_exceptions.md R111: a command written while BUSY, whatever the word is; the next accepted command
clears OVR, and until then (or reset, R112) it stays. -/
def Obligations.BusyDropsTheCommand : Prop :=
  (∀ (s : State) (v : Word) (rest : List Input), s.engine.phase = .ser →
    s.inputs = wrInput s.platform .cmd v :: rest →
    step s = .next ((s.withInputs rest).withStatus { s.status with ovr := true })) ∧
  (∀ (s : State) (v : Word) (rest : List Input), s.engine.phase = .idle →
    s.inputs = wrInput s.platform .cmd v :: rest →
    ∃ t, step s = .next t ∧ t.status.ovr = false) ∧
  (∀ s t : State, s.status.ovr = true → step s = .next t → t.status.ovr = false →
    resetArrives s 0 ∨ (s.engine.phase = .idle ∧ storeArrives s 0 0x10))

/-- 10_state.md R24, 60_exceptions.md R112: what may write the status bits. DONE changes only by reset, by
an accepted command, or, from 0 to 1, by the engine turn that writes the last record; OVR only by reset,
by an accepted command, or, from 0 to 1, by a CMD write while BUSY; ERR only by reset or by an accepted
command. -/
def Obligations.StatusWrittenOnlyAsStated : Prop :=
  ∀ s t : State, step s = .next t →
    (t.status.done ≠ s.status.done →
      resetArrives s 0 ∨ (s.engine.phase = .idle ∧ storeArrives s 0 0x10 ∧ t.status.done = false) ∨
      (s.engine.phase = .ser ∧ engineArrives s 0 ∧
        s.engine.serIdx.toNat + 1 = s.chain.count.toNat ∧ t.status.done = true)) ∧
    (t.status.ovr ≠ s.status.ovr →
      resetArrives s 0 ∨ (s.engine.phase = .idle ∧ storeArrives s 0 0x10 ∧ t.status.ovr = false) ∨
      (s.engine.phase = .ser ∧ storeArrives s 0 0x10 ∧ t.status.ovr = true)) ∧
    (t.status.err ≠ s.status.err →
      resetArrives s 0 ∨ (s.engine.phase = .idle ∧ storeArrives s 0 0x10))

/-- 60_exceptions.md R110: what an error leaves. Only BUILD changes the chain before a check, and the
second half of BUILD_SERIALIZE keeps the chain its first half built. -/
def Obligations.ErrorLeavesTheRest : Prop :=
  ∀ (i : Instr) (s t : State), s.engine.phase = .idle → exec i s = .next t →
    t.status.err ≠ .none →
    t.status.done = false ∧ t.status.ovr = false ∧ t.regs = s.regs ∧ t.engine = s.engine ∧
    t.mem = s.mem ∧
    (i = .build → t.chain = ChainState.empty) ∧
    (i = .buildSerialize →
      t.chain = ChainState.empty ∨ t.chain = latchChain s.regs.srcAddr s.regs.srcLen) ∧
    (i ≠ .build → i ≠ .buildSerialize → t.chain = s.chain)

/-- 60_exceptions.md R109: the first failing check of SERIALIZE and of BUILD_SERIALIZE is the one
reported. -/
def Obligations.FirstFailingCheckIsReported : Prop :=
  ∀ s : State, s.engine.phase = .idle →
    (∃ t, exec .serialize s = .next t ∧
      t.status.err =
        if s.chain.valid = false then .noChain
        else if s.regs.tblBase.toNat % 8 ≠ 0 then .tblAlign
        else if s.regs.tblCap.toNat < 8 * s.chain.count.toNat then .tblSmall
        else if 4294967296 < s.regs.tblBase.toNat + 8 * s.chain.count.toNat then .tblOvf
        else .none) ∧
    (∃ t, exec .buildSerialize s = .next t ∧
      t.status.err =
        if s.regs.srcLen.toNat = 0 then .zeroLen
        else if 4294967296 < s.regs.srcAddr.toNat + s.regs.srcLen.toNat then .srcOvf
        else if s.regs.tblBase.toNat % 8 ≠ 0 then .tblAlign
        else if s.regs.tblCap.toNat < 8 * ceilDiv s.regs.srcLen.toNat 65532 then .tblSmall
        else if 4294967296 < s.regs.tblBase.toNat + 8 * ceilDiv s.regs.srcLen.toNat 65532 then .tblOvf
        else .none)

/-- 10_state.md R17, R24, 20_memory.md R32, 42_host_commands.md R91 to R96: the frame of the five
commands. None changes a configuration register, a byte of memory or anything outside the block; NOP,
BUILD and DISCARD leave the engine, NOP and SERIALIZE the chain; a dropped command changes OVR alone. -/
def Obligations.CommandsFrame : Prop :=
  ∀ (i : Instr) (s t : State), exec i s = .next t →
    t.regs = s.regs ∧ (∀ a, memGet t.mem a = memGet s.mem a) ∧ t.mem = s.mem ∧
    t.others = s.others ∧ t.platform = s.platform ∧ t.inputs = s.inputs ∧ t.lastRead = s.lastRead ∧
    t.draws = s.draws ∧
    (i = .nop ∨ i = .build ∨ i = .discard → t.engine = s.engine) ∧
    (i = .nop ∨ i = .serialize → t.chain = s.chain) ∧
    (s.engine.phase = .idle → t.status.done = false ∧ t.status.ovr = false) ∧
    (s.engine.phase = .ser →
      t.chain = s.chain ∧ t.engine = s.engine ∧ t.status.done = s.status.done ∧
      t.status.err = s.status.err ∧ t.status.ovr = true)

/-! ### Registers and host accesses -/

/-- 10_state.md R17, 42_host_commands.md R89: a store to a configuration register reads back whole, is
accepted whether BUSY or not, and changes nothing else. -/
def Obligations.ConfigStoreReadsBack : Prop :=
  ∀ (s : State) (r : Reg) (v : Word) (rest : List Input),
    (r = .srcAddr ∨ r = .srcLen ∨ r = .tblBase ∨ r = .tblCap ∨ r = .recIndex) →
    s.inputs = wrInput s.platform r v :: rest →
    ∃ t, step s = .next t ∧ readReg r t = v ∧
      (∀ q : Reg, (q = .srcAddr ∨ q = .srcLen ∨ q = .tblBase ∨ q = .tblCap ∨ q = .recIndex) →
        q ≠ r → readReg q t = readReg q s) ∧
      t = (s.withInputs rest).withRegs t.regs

/-- 30_encoding.md R48: the reserved offsets read 0 and ignore writes. -/
def Obligations.ReservedOffsets : Prop :=
  ∀ (s : State) (off : Nat) (v : DWord) (rest : List Input),
    (off = 0x30 ∨ off = 0x34 ∨ off = 0x38 ∨ off = 0x3C) →
    (s.inputs = .store (windowAddr s.platform off) .word v :: rest →
      step s = .next (s.withInputs rest)) ∧
    (s.inputs = .load (windowAddr s.platform off) .word :: rest →
      step s = .next ((s.withInputs rest).withLastRead (some 0)))

/-- 10_state.md R25: a write to a read-only register is ignored. -/
def Obligations.ReadOnlyRegistersIgnoreWrites : Prop :=
  ∀ (s : State) (r : Reg) (v : Word) (rest : List Input),
    (r = .status ∨ r = .recCount ∨ r = .lastLen ∨ r = .recWord0 ∨ r = .recWord1 ∨ r = .bytesOut) →
    s.inputs = wrInput s.platform r v :: rest → step s = .next (s.withInputs rest)

/-- 10_state.md R26: a write to CMD issues a command, a read returns 0 and does nothing else. -/
def Obligations.CmdIsWriteOnly : Prop :=
  ∀ (s : State) (v : Word) (rest : List Input),
    (s.inputs = wrInput s.platform .cmd v :: rest →
      step s = commandWrite v (s.withInputs rest)) ∧
    (s.inputs = rdInput s.platform .cmd :: rest →
      step s = .next ((s.withInputs rest).withLastRead (some 0)))

/-- 42_host_commands.md R90, 10_state.md R17, R25, R26, 30_encoding.md R47: a register read returns the
value of the register at its offset and has no other effect; what each register reads; and the register
map. REC_WORD0 and REC_WORD1 are ReadbackPort's. The returned value stands in `lastRead`, the model's own
field (log 10). -/
def Obligations.RegisterReadsFollowTheMap : Prop :=
  (∀ (s : State) (off : Nat) (rest : List Input), off % 4 = 0 → off < 0x40 →
    s.inputs = .load (windowAddr s.platform off) .word :: rest →
    step s = .next ((s.withInputs rest).withLastRead
      (some ((readReg (regAt off) s).setWidth 64)))) ∧
  (∀ s : State,
    readReg .srcAddr s = s.regs.srcAddr ∧ readReg .srcLen s = s.regs.srcLen ∧
    readReg .tblBase s = s.regs.tblBase ∧ readReg .tblCap s = s.regs.tblCap ∧ readReg .cmd s = 0 ∧
    readReg .status s = statusWord s ∧ readReg .recCount s = s.chain.count ∧
    readReg .lastLen s = s.chain.last.setWidth 32 ∧ readReg .recIndex s = s.regs.recIndex ∧
    readReg .bytesOut s = s.engine.bytesOut ∧ readReg .unmapped s = 0) ∧
  (regAt 0x00 = .srcAddr ∧ regAt 0x04 = .srcLen ∧ regAt 0x08 = .tblBase ∧ regAt 0x0C = .tblCap ∧
    regAt 0x10 = .cmd ∧ regAt 0x14 = .status ∧ regAt 0x18 = .recCount ∧ regAt 0x1C = .lastLen ∧
    regAt 0x20 = .recIndex ∧ regAt 0x24 = .recWord0 ∧ regAt 0x28 = .recWord1 ∧
    regAt 0x2C = .bytesOut ∧ regAt 0x30 = .unmapped ∧ regAt 0x34 = .unmapped ∧
    regAt 0x38 = .unmapped ∧ regAt 0x3C = .unmapped) ∧
  (∀ r : Reg, regAt (regOffset r) = r ∧ regOffset r % 4 = 0 ∧ regOffset r < 0x40)

/-- 30_encoding.md R49, 10_state.md R25: the STATUS word, bit by bit. -/
def Obligations.StatusWordLayout : Prop :=
  ∀ s : State,
    readReg .status s = statusWord s ∧
    ((statusWord s).getLsbD 0 = true ↔ s.engine.phase = .ser) ∧
    (statusWord s).getLsbD 1 = s.chain.valid ∧
    (statusWord s).getLsbD 2 = s.status.done ∧
    (statusWord s).getLsbD 3 = s.status.ovr ∧
    (statusWord s).extractLsb' 4 4 = s.status.err.code ∧
    (statusWord s).extractLsb' 8 24 = 0#24

/-- 10_state.md R25: the readback port shows the selected record of the held chain, and 0 where there is
none. -/
def Obligations.ReadbackPort : Prop :=
  ∀ s : State, ChainOk s.chain →
    (s.chain.valid = true → s.regs.recIndex.toNat < s.chain.count.toNat →
      ∃ r, (heldChain s)[s.regs.recIndex.toNat]? = some r ∧
        readReg .recWord0 s = r.length ++ 0x00#8 ++ r.attr ∧
        readReg .recWord1 s = r.address) ∧
    (s.chain.valid = false ∨ s.chain.count.toNat ≤ s.regs.recIndex.toNat →
      readReg .recWord0 s = 0 ∧ readReg .recWord1 s = 0)

/-- 20_memory.md R38: an access that touches a register window and is not an aligned 32-bit access is
refused. That an access of which only a part lies in the window is refused as a whole is the model's
reading (log 5). -/
def Obligations.OtherWindowAccessesRefused : Prop :=
  ∀ (s : State) (a : Word) (z : Size) (v : DWord) (rest : List Input),
    touchesAnyWindow s.platform a.toNat z.bytes = true → ¬(z = .word ∧ a.toNat % 4 = 0) →
    (s.inputs = .store a z v :: rest → step s = .refused (.badAccess a z)) ∧
    (s.inputs = .load a z :: rest → step s = .refused (.badAccess a z))

/-! ### The step, the engine and memory -/

/-- 42_host_commands.md R91, 10_state.md R19, 30_encoding.md R60, 60_exceptions.md R119: when the next
input is a write to CMD of a word that decodes to a command, the step runs that command on the state with
the input taken; the host's line `CMD <MNEMONIC>` for an instance is such an input, and the command runs
on that instance. So it is with every input: what arrives at instance `k` does there what the same input
does to instance 0 when the two are exchanged. How the instances stand in the state is the model's choice
(log 12). -/
def Obligations.StepRunsTheDecodedCommand : Prop :=
  (∀ (s : State) (w : Word) (i : Instr) (rest : List Input),
    s.inputs = wrInput s.platform .cmd w :: rest → decode w = .ok i → i.wellFormed = true →
    step s = exec i (s.withInputs rest)) ∧
  (∀ (s : State) (k : Nat) (i : Instr) (rest : List Input), k < s.instances →
    s.others.length = s.platform.otherPages.length → WindowsDistinct s.platform →
    s.inputs = (HostLine.cmd i).inputs s.platform k ++ rest →
    ∃ t, exec i ((s.withInputs rest).focus k) = .next t ∧ step s = .next (t.focus k)) ∧
  (∀ (s t : State) (k : Nat) (i j : Input) (rest : List Input), k < s.instances →
    s.others.length = s.platform.otherPages.length → WindowsDistinct s.platform →
    ((i = .engine k ∧ j = .engine 0) ∨ (i = .reset k ∧ j = .reset 0) ∨
      (∃ r v, i = wrInput (s.platform.focus k) r v ∧ j = i) ∨
      (∃ r, i = rdInput (s.platform.focus k) r ∧ j = i)) →
    s.inputs = i :: rest →
    (step s = .next t ↔ step ((s.focus k).withInputs (j :: rest)) = .next (t.focus k)))

/-- 42_host_commands.md R97, 20_memory.md R32: an enabled engine that `Mem` admits writes exactly the 8
bytes of record SER_IDX and advances; the last record sets DONE and clears BUSY in the same step. That an
engine moves when no input waits is how the model gives R132 (log 2). -/
def Obligations.EngineWritesOneRecord : Prop :=
  ∀ (s : State) (r : Record), engineArrives s 0 →
    s.engine.phase = .ser → recordAt s s.engine.serIdx.toNat = some r →
    touchesAnyWindow s.platform s.engine.serBase.toNat (8 * s.chain.count.toNat) = false →
    admitsStore s.platform (s.engine.serBase.toNat + 8 * s.engine.serIdx.toNat) 8 = true →
    ∃ t, step s = .next t ∧
      HoldsBytes t.mem (s.engine.serBase.toNat + 8 * s.engine.serIdx.toNat) (formatRecord r) ∧
      (∀ x, (x < s.engine.serBase.toNat + 8 * s.engine.serIdx.toNat ∨
          s.engine.serBase.toNat + 8 * s.engine.serIdx.toNat + 8 ≤ x) →
        memGet t.mem x = memGet s.mem x) ∧
      t.engine.serIdx.toNat = s.engine.serIdx.toNat + 1 ∧
      t.engine.bytesOut.toNat = 8 * (s.engine.serIdx.toNat + 1) ∧
      t.engine.serBase = s.engine.serBase ∧
      (s.engine.serIdx.toNat + 1 = s.chain.count.toNat →
        t.engine.phase = .idle ∧ t.status.done = true) ∧
      (s.engine.serIdx.toNat + 1 ≠ s.chain.count.toNat →
        t.engine.phase = .ser ∧ t.status.done = s.status.done) ∧
      t.status.ovr = s.status.ovr ∧ t.status.err = s.status.err ∧ t.chain = s.chain ∧
      t.regs = s.regs ∧ t.others = s.others ∧ t.platform = s.platform ∧ t.inputs = s.inputs.tail ∧
      t.lastRead = s.lastRead ∧
      t.draws = s.draws

/-- 42_host_commands.md R97: the engine's turn changes nothing when it is not enabled, and, as the
model's reading of "the engine has no step" (log 6), when `Mem` does not admit the write: BUSY stays 1
and no error is reported. With no input waiting (log 2) this is said of a state in which no other
instance is BUSY. -/
def Obligations.DisabledOrStuckEngineChangesNothing : Prop :=
  ∀ s : State, (∃ rest, s.inputs = .engine 0 :: rest) ∨
      (s.inputs = [] ∧ ∀ b ∈ s.others, b.engine.phase = .idle) →
    (s.engine.phase = .idle → step s = .next (s.withInputs s.inputs.tail)) ∧
    (s.engine.phase = .ser →
      touchesAnyWindow s.platform s.engine.serBase.toNat (8 * s.chain.count.toNat) = false →
      admitsStore s.platform (s.engine.serBase.toNat + 8 * s.engine.serIdx.toNat) 8 = false →
      step s = .next (s.withInputs s.inputs.tail))

/-- 70_reset_and_hazards.md R127: a table that overlaps a register window is refused at the engine's
turn (log 11: at the first one, and for any instance's window). That a step with no input waiting is an
engine's turn, instance 0's first, is how the model gives R132 (log 2). -/
def Obligations.TableOverWindowRefused : Prop :=
  ∀ s : State, Inv s → engineArrives s 0 → s.engine.phase = .ser →
    touchesAnyWindow s.platform s.engine.serBase.toNat (8 * s.chain.count.toNat) = true →
    step s = .refused .tableOverlapsWindow

/-- 10_state.md R28, 00_scope.md R11, 60_exceptions.md R119: the reset state of every one of the
N_INSTANCES instances, and that every register then reads 0; a reset of one instance leaves the others
(log 8). -/
def Obligations.ResetValues : Prop :=
  ∀ p : Platform,
    (State.resetOn p).regs = ⟨0, 0, 0, 0, 0⟩ ∧ (State.resetOn p).chain = ⟨false, 0, 0, 0, 0⟩ ∧
    (State.resetOn p).engine = ⟨.idle, 0, 0, 0⟩ ∧
    (State.resetOn p).status = ⟨false, false, .none⟩ ∧ heldChain (State.resetOn p) = [] ∧
    (∀ r : Reg, readReg r (State.resetOn p) = 0) ∧
    (State.resetOn p).instances = p.instances ∧
    (∀ k, k < p.instances → (State.resetOn p).blockAt k =
      some ⟨⟨0, 0, 0, 0, 0⟩, ⟨false, 0, 0, 0, 0⟩, ⟨.idle, 0, 0, 0⟩, ⟨false, false, .none⟩⟩) ∧
    (∀ s : State, resetArrives s 0 →
      ∃ t, step s = .next t ∧ (s.engine.phase = .idle → t.mem = s.mem) ∧ t.regs = ⟨0, 0, 0, 0, 0⟩ ∧
        t.chain = ⟨false, 0, 0, 0, 0⟩ ∧ t.engine = ⟨.idle, 0, 0, 0⟩ ∧
        t.status = ⟨false, false, .none⟩ ∧ t.others = s.others)

/-- 70_reset_and_hazards.md R122: reset in the middle of a serialization ends it; the completed records
stay, and record SER_IDX may have been written or not. That this is open for each byte of the record, and
that a reset leaves the platform, the inputs that wait and the other instances as they are, is log 8
(93_implementation_defined.md section 1). -/
def Obligations.ResetDuringSerialization : Prop :=
  ∀ (s : State) (rest : List Input), Inv s → TableInMemory s → s.engine.phase = .ser →
    s.inputs = .reset 0 :: rest →
    ∃ t, step s = .next t ∧ t.regs = ⟨0, 0, 0, 0, 0⟩ ∧ t.chain = ⟨false, 0, 0, 0, 0⟩ ∧
      t.engine = ⟨.idle, 0, 0, 0⟩ ∧ t.status = ⟨false, false, .none⟩ ∧
      t.others = s.others ∧ t.platform = s.platform ∧ t.inputs = rest ∧
      HoldsBytes t.mem s.engine.serBase.toNat ((table s).take (8 * s.engine.serIdx.toNat)) ∧
      (∀ x, memGet t.mem x = memGet s.mem x ∨
        (∃ k, k < 8 ∧ x = s.engine.serBase.toNat + 8 * s.engine.serIdx.toNat + k ∧
          memGet t.mem x = (table s)[8 * s.engine.serIdx.toNat + k]?))

/-- 20_memory.md R39: a byte loaded while a serialization runs is what memory holds, or, in the record that
an instance is writing, possibly the new byte; and loading it changes neither an instance nor memory. With
no table of another instance over this one's, a byte of the table outside record SER_IDX is what memory
holds. -/
def Obligations.LoadDuringSerialization : Prop :=
  ∀ (s t : State) (a : Word) (rest : List Input), Inv s → s.engine.phase = .ser →
    s.inputs = .load a .byte :: rest →
    touchesAnyWindow s.platform a.toNat 1 = false → step s = .next t →
    t.regs = s.regs ∧ t.chain = s.chain ∧ t.engine = s.engine ∧ t.status = s.status ∧
    t.others = s.others ∧ t.mem = s.mem ∧
    ∃ b : Byte, t.lastRead = some (b.setWidth 64) ∧
      (memGet s.mem a.toNat = some b ∨
        (∃ k j, k < s.instances ∧ j < 8 ∧ (s.focus k).engine.phase = .ser ∧
          a.toNat = (s.focus k).engine.serBase.toNat + 8 * (s.focus k).engine.serIdx.toNat + j ∧
          (table (s.focus k))[8 * (s.focus k).engine.serIdx.toNat + j]? = some b)) ∧
      (TablesDisjoint s → s.engine.serBase.toNat ≤ a.toNat →
        a.toNat < s.engine.serBase.toNat + 8 * s.chain.count.toNat →
        (a.toNat < s.engine.serBase.toNat + 8 * s.engine.serIdx.toNat ∨
          s.engine.serBase.toNat + 8 * s.engine.serIdx.toNat + 8 ≤ a.toNat) →
        memGet s.mem a.toNat = some b)

/-- 20_memory.md R34: the little-endian composition a 32-bit or 64-bit load of a record meets while no
serialization runs. -/
def Obligations.RecordLoads : Prop :=
  ∀ (s : State) (r : Record) (a b : Word) (rest : List Input), AllIdle s →
    b.toNat = a.toNat + 4 → HoldsBytes s.mem a.toNat (formatRecord r) →
    touchesAnyWindow s.platform a.toNat 8 = false → admitsLoad s.platform a.toNat 8 = true →
    (s.inputs = .load a .word :: rest →
      ∃ n, step s = .next (((s.withInputs rest).withLastRead
        (some ((r.length ++ r.reserved ++ r.attr).setWidth 64))).withDraws n)) ∧
    (s.inputs = .load b .word :: rest →
      ∃ n, step s = .next (((s.withInputs rest).withLastRead
        (some (r.address.setWidth 64))).withDraws n)) ∧
    (s.inputs = .load a .dword :: rest →
      ∃ n, step s = .next (((s.withInputs rest).withLastRead (some (rec64 r))).withDraws n))

/-- The model's choice (logs 4 and 5; the spec gives these accesses no effect): an agent's access to
memory that the platform does not admit, and a load of a byte that nothing wrote, fault. -/
def Obligations.AgentAccessFaults : Prop :=
  ∀ (s : State) (a : Word) (z : Size) (v : DWord) (rest : List Input),
    touchesAnyWindow s.platform a.toNat z.bytes = false →
    (s.inputs = .store a z v :: rest → admitsStore s.platform a.toNat z.bytes = false →
      step s = .fault (.busError a)) ∧
    (s.inputs = .load a z :: rest → admitsLoad s.platform a.toNat z.bytes = false →
      step s = .fault (.busError a)) ∧
    (s.inputs = .load a z :: rest → admitsLoad s.platform a.toNat z.bytes = true →
      AllIdle s → (∃ k, k < z.bytes ∧ memGet s.mem (a.toNat + k) = none) →
      step s = .fault (.unwritten a))

/-! ### Every step -/

/-- The invariant holds right after reset, on every platform (10_state.md R28). -/
def Obligations.InvariantAtReset : Prop :=
  ∀ p : Platform, Inv (State.resetOn p) ∧ TableInMemory (State.resetOn p)

/-- 10_state.md R21, R23, R24: every step keeps the chain, engine and status invariants and the canonical
form of memory. -/
def Obligations.EveryStepKeepsTheInvariant : Prop :=
  ∀ s t : State, Inv s → step s = .next t → Inv t

/-- 20_memory.md R43, 70_reset_and_hazards.md R127, R128: the completed records, and the whole table once
DONE is set, stay in memory through every step that is not another agent's store into the table, as long
as no other instance is writing a table over it. -/
def Obligations.EveryStepKeepsTheTable : Prop :=
  ∀ s t : State, Inv s → TableInMemory s → TablesDisjoint s → step s = .next t →
    (∀ i rest, s.inputs = i :: rest → ¬ storesToTable s i) → TableInMemory t

/-- 20_memory.md R43: once DONE is set, an agent's load of a table byte returns that byte of the table. -/
def Obligations.FinishedTableIsSeen : Prop :=
  ∀ (s : State) (j : Nat) (a : Word) (rest : List Input), Inv s → TableInMemory s →
    TablesDisjoint s → s.status.done = true → j < 8 * s.chain.count.toNat →
    a.toNat = s.engine.serBase.toNat + j → s.inputs = .load a .byte :: rest →
    touchesAnyWindow s.platform a.toNat 1 = false → admitsLoad s.platform a.toNat 1 = true →
    ∃ (b : Byte) (n : Nat), (table s)[j]? = some b ∧
      step s = .next (((s.withInputs rest).withLastRead (some (b.setWidth 64))).withDraws n)

/-- 42_host_commands.md R97, R91, R94, 10_state.md R22: while BUSY only reset changes the held chain or the
latched table base: no command and no host write does. While idle the chain and the engine's state change,
and a serialization starts, only by a 32-bit store to CMD or by reset. -/
def Obligations.ChainAndEngineChangeOnlyByCommand : Prop :=
  ∀ s t : State, step s = .next t →
    (s.engine.phase = .ser →
      resetArrives s 0 ∨
      (t.chain = s.chain ∧ heldChain t = heldChain s ∧ t.engine.serBase = s.engine.serBase)) ∧
    (s.engine.phase = .idle →
      resetArrives s 0 ∨ storeArrives s 0 0x10 ∨
      (t.chain = s.chain ∧ heldChain t = heldChain s ∧ t.engine = s.engine))

/-- 10_state.md R17, 60_exceptions.md R119: only the host's register write, or reset, changes a
configuration register of an instance. The instances share no state: a step changes the state of one
instance at most, and only by that instance's engine turn, its reset or a store to its window. The
platform's parameters never change (log 3). -/
def Obligations.OnlyHostStoresChangeConfig : Prop :=
  ∀ s t : State, step s = .next t →
    t.platform = s.platform ∧ t.instances = s.instances ∧
    (∀ (k : Nat) (b c : Block), s.blockAt k = some b → t.blockAt k = some c → c.regs ≠ b.regs →
      resetArrives s k ∨ storeArrives s k 0x00 ∨ storeArrives s k 0x04 ∨ storeArrives s k 0x08 ∨
      storeArrives s k 0x0C ∨ storeArrives s k 0x20) ∧
    (∀ k, t.blockAt k ≠ s.blockAt k →
      engineArrives s k ∨ resetArrives s k ∨ ∃ off, off < 0x40 ∧ off % 4 = 0 ∧ storeArrives s k off) ∧
    (∀ j k, t.blockAt j ≠ s.blockAt j → t.blockAt k ≠ s.blockAt k → j = k)

/-- 20_memory.md R31, R32: a byte of memory changes only by an instance's engine writing its record
SER_IDX, by a reset that meets it in flight, or by another agent's store to it outside the windows. -/
def Obligations.OnlyEngineAndAgentsWriteMemory : Prop :=
  ∀ (s t : State) (x : Nat), step s = .next t → memGet t.mem x ≠ memGet s.mem x →
    (∃ k, k < s.instances ∧ (s.focus k).engine.phase = .ser ∧
      (engineArrives s k ∨ resetArrives s k) ∧
      (s.focus k).engine.serBase.toNat + 8 * (s.focus k).engine.serIdx.toNat ≤ x ∧
      x < (s.focus k).engine.serBase.toNat + 8 * (s.focus k).engine.serIdx.toNat + 8) ∨
    (∃ a z v rest, s.inputs = .store a z v :: rest ∧
      touchesAnyWindow s.platform a.toNat z.bytes = false ∧ a.toNat ≤ x ∧ x < a.toNat + z.bytes)

/-! ### A whole serialization -/

/-- 42_host_commands.md R97, 41_record_serializer.md R88, 70_reset_and_hazards.md R131: with nothing else
arriving, a serialization whose table lies in writable memory takes exactly CH_COUNT - SER_IDX engine
turns, stays BUSY until the last one, and leaves the whole table at SER_BASE and every other byte as it
was. That a step with no input is an engine's turn is how the model gives R132 (log 2). -/
def Obligations.SerializationCompletes : Prop :=
  ∀ s : State, Inv s → s.engine.phase = .ser → s.inputs = [] → TableWritable s → TableInMemory s →
    (∀ k, k < s.chain.count.toNat - s.engine.serIdx.toNat →
      ∃ u, Host.Core.run Sys2Proof.core k s = .next u ∧ (u : State).engine.phase = .ser) ∧
    ∃ t : State,
      Host.Core.run Sys2Proof.core (s.chain.count.toNat - s.engine.serIdx.toNat) s = .next t ∧
      t.engine.phase = .idle ∧ t.status.done = true ∧ t.status.ovr = s.status.ovr ∧
      t.status.err = .none ∧ t.chain = s.chain ∧ t.regs = s.regs ∧
      t.engine.bytesOut.toNat = 8 * s.chain.count.toNat ∧
      HoldsBytes t.mem s.engine.serBase.toNat (table s) ∧
      (∀ x, (x < s.engine.serBase.toNat ∨
          s.engine.serBase.toNat + 8 * s.chain.count.toNat ≤ x) →
        memGet t.mem x = memGet s.mem x)

/-- 41_record_serializer.md R85, 70_reset_and_hazards.md R128: serializing the same chain to the place
where its table already stands changes no byte of memory. No input waits; that each step is then an
engine's turn, instance 0's first, so that CH_COUNT steps do, is how the model gives R132 (log 2). -/
def Obligations.SerializingAgainChangesNoByte : Prop :=
  ∀ s : State, Inv s → s.engine.phase = .idle → s.inputs = [] → s.chain.valid = true →
    s.regs.tblBase.toNat % 8 = 0 → 8 * s.chain.count.toNat ≤ s.regs.tblCap.toNat →
    s.regs.tblBase.toNat + 8 * s.chain.count.toNat ≤ 4294967296 →
    touchesAnyWindow s.platform s.regs.tblBase.toNat (8 * s.chain.count.toNat) = false →
    admitsStore s.platform s.regs.tblBase.toNat (8 * s.chain.count.toNat) = true →
    HoldsBytes s.mem s.regs.tblBase.toNat (table s) →
    ∃ t u : State, exec .serialize s = .next t ∧
      Host.Core.run Sys2Proof.core s.chain.count.toNat t = .next u ∧
      u.status.done = true ∧ ∀ x, memGet u.mem x = memGet s.mem x
end

