-- ==== Sys2Proof/Laws/State.lean ====
section
/-! SUPPORT. One lemma per field per update of the state, each true by unfolding, so that no later proof
unfolds a record update. -/

namespace Sys2Proof.Machine

@[simp] theorem State.withRegs_regs (s : State) (r : Regs) : (s.withRegs r).regs = r := rfl
@[simp] theorem State.withRegs_chain (s : State) (r : Regs) : (s.withRegs r).chain = s.chain := rfl
@[simp] theorem State.withRegs_engine (s : State) (r : Regs) : (s.withRegs r).engine = s.engine := rfl
@[simp] theorem State.withRegs_status (s : State) (r : Regs) : (s.withRegs r).status = s.status := rfl
@[simp] theorem State.withRegs_others (s : State) (r : Regs) : (s.withRegs r).others = s.others := rfl
@[simp] theorem State.withRegs_mem (s : State) (r : Regs) : (s.withRegs r).mem = s.mem := rfl
@[simp] theorem State.withRegs_platform (s : State) (r : Regs) : (s.withRegs r).platform = s.platform := rfl
@[simp] theorem State.withRegs_inputs (s : State) (r : Regs) : (s.withRegs r).inputs = s.inputs := rfl
@[simp] theorem State.withRegs_lastRead (s : State) (r : Regs) : (s.withRegs r).lastRead = s.lastRead := rfl
@[simp] theorem State.withRegs_draws (s : State) (r : Regs) : (s.withRegs r).draws = s.draws := rfl

@[simp] theorem State.withChain_regs (s : State) (c : ChainState) : (s.withChain c).regs = s.regs := rfl
@[simp] theorem State.withChain_chain (s : State) (c : ChainState) : (s.withChain c).chain = c := rfl
@[simp] theorem State.withChain_engine (s : State) (c : ChainState) : (s.withChain c).engine = s.engine := rfl
@[simp] theorem State.withChain_status (s : State) (c : ChainState) : (s.withChain c).status = s.status := rfl
@[simp] theorem State.withChain_others (s : State) (c : ChainState) : (s.withChain c).others = s.others := rfl
@[simp] theorem State.withChain_mem (s : State) (c : ChainState) : (s.withChain c).mem = s.mem := rfl
@[simp] theorem State.withChain_platform (s : State) (c : ChainState) : (s.withChain c).platform = s.platform := rfl
@[simp] theorem State.withChain_inputs (s : State) (c : ChainState) : (s.withChain c).inputs = s.inputs := rfl
@[simp] theorem State.withChain_lastRead (s : State) (c : ChainState) : (s.withChain c).lastRead = s.lastRead := rfl
@[simp] theorem State.withChain_draws (s : State) (c : ChainState) : (s.withChain c).draws = s.draws := rfl

@[simp] theorem State.withEngine_regs (s : State) (e : Engine) : (s.withEngine e).regs = s.regs := rfl
@[simp] theorem State.withEngine_chain (s : State) (e : Engine) : (s.withEngine e).chain = s.chain := rfl
@[simp] theorem State.withEngine_engine (s : State) (e : Engine) : (s.withEngine e).engine = e := rfl
@[simp] theorem State.withEngine_status (s : State) (e : Engine) : (s.withEngine e).status = s.status := rfl
@[simp] theorem State.withEngine_others (s : State) (e : Engine) : (s.withEngine e).others = s.others := rfl
@[simp] theorem State.withEngine_mem (s : State) (e : Engine) : (s.withEngine e).mem = s.mem := rfl
@[simp] theorem State.withEngine_platform (s : State) (e : Engine) : (s.withEngine e).platform = s.platform := rfl
@[simp] theorem State.withEngine_inputs (s : State) (e : Engine) : (s.withEngine e).inputs = s.inputs := rfl
@[simp] theorem State.withEngine_lastRead (s : State) (e : Engine) : (s.withEngine e).lastRead = s.lastRead := rfl
@[simp] theorem State.withEngine_draws (s : State) (e : Engine) : (s.withEngine e).draws = s.draws := rfl

@[simp] theorem State.withStatus_regs (s : State) (t : Status) : (s.withStatus t).regs = s.regs := rfl
@[simp] theorem State.withStatus_chain (s : State) (t : Status) : (s.withStatus t).chain = s.chain := rfl
@[simp] theorem State.withStatus_engine (s : State) (t : Status) : (s.withStatus t).engine = s.engine := rfl
@[simp] theorem State.withStatus_status (s : State) (t : Status) : (s.withStatus t).status = t := rfl
@[simp] theorem State.withStatus_others (s : State) (t : Status) : (s.withStatus t).others = s.others := rfl
@[simp] theorem State.withStatus_mem (s : State) (t : Status) : (s.withStatus t).mem = s.mem := rfl
@[simp] theorem State.withStatus_platform (s : State) (t : Status) : (s.withStatus t).platform = s.platform := rfl
@[simp] theorem State.withStatus_inputs (s : State) (t : Status) : (s.withStatus t).inputs = s.inputs := rfl
@[simp] theorem State.withStatus_lastRead (s : State) (t : Status) : (s.withStatus t).lastRead = s.lastRead := rfl
@[simp] theorem State.withStatus_draws (s : State) (t : Status) : (s.withStatus t).draws = s.draws := rfl

@[simp] theorem State.withOthers_regs (s : State) (l : List Block) : (s.withOthers l).regs = s.regs := rfl
@[simp] theorem State.withOthers_chain (s : State) (l : List Block) : (s.withOthers l).chain = s.chain := rfl
@[simp] theorem State.withOthers_engine (s : State) (l : List Block) : (s.withOthers l).engine = s.engine := rfl
@[simp] theorem State.withOthers_status (s : State) (l : List Block) : (s.withOthers l).status = s.status := rfl
@[simp] theorem State.withOthers_others (s : State) (l : List Block) : (s.withOthers l).others = l := rfl
@[simp] theorem State.withOthers_mem (s : State) (l : List Block) : (s.withOthers l).mem = s.mem := rfl
@[simp] theorem State.withOthers_platform (s : State) (l : List Block) : (s.withOthers l).platform = s.platform := rfl
@[simp] theorem State.withOthers_inputs (s : State) (l : List Block) : (s.withOthers l).inputs = s.inputs := rfl
@[simp] theorem State.withOthers_lastRead (s : State) (l : List Block) : (s.withOthers l).lastRead = s.lastRead := rfl
@[simp] theorem State.withOthers_draws (s : State) (l : List Block) : (s.withOthers l).draws = s.draws := rfl

@[simp] theorem State.withMem_regs (s : State) (m : Memory) : (s.withMem m).regs = s.regs := rfl
@[simp] theorem State.withMem_chain (s : State) (m : Memory) : (s.withMem m).chain = s.chain := rfl
@[simp] theorem State.withMem_engine (s : State) (m : Memory) : (s.withMem m).engine = s.engine := rfl
@[simp] theorem State.withMem_status (s : State) (m : Memory) : (s.withMem m).status = s.status := rfl
@[simp] theorem State.withMem_others (s : State) (m : Memory) : (s.withMem m).others = s.others := rfl
@[simp] theorem State.withMem_mem (s : State) (m : Memory) : (s.withMem m).mem = m := rfl
@[simp] theorem State.withMem_platform (s : State) (m : Memory) : (s.withMem m).platform = s.platform := rfl
@[simp] theorem State.withMem_inputs (s : State) (m : Memory) : (s.withMem m).inputs = s.inputs := rfl
@[simp] theorem State.withMem_lastRead (s : State) (m : Memory) : (s.withMem m).lastRead = s.lastRead := rfl
@[simp] theorem State.withMem_draws (s : State) (m : Memory) : (s.withMem m).draws = s.draws := rfl

@[simp] theorem State.withPlatform_regs (s : State) (p : Platform) : (s.withPlatform p).regs = s.regs := rfl
@[simp] theorem State.withPlatform_chain (s : State) (p : Platform) : (s.withPlatform p).chain = s.chain := rfl
@[simp] theorem State.withPlatform_engine (s : State) (p : Platform) : (s.withPlatform p).engine = s.engine := rfl
@[simp] theorem State.withPlatform_status (s : State) (p : Platform) : (s.withPlatform p).status = s.status := rfl
@[simp] theorem State.withPlatform_others (s : State) (p : Platform) : (s.withPlatform p).others = s.others := rfl
@[simp] theorem State.withPlatform_mem (s : State) (p : Platform) : (s.withPlatform p).mem = s.mem := rfl
@[simp] theorem State.withPlatform_platform (s : State) (p : Platform) : (s.withPlatform p).platform = p := rfl
@[simp] theorem State.withPlatform_inputs (s : State) (p : Platform) : (s.withPlatform p).inputs = s.inputs := rfl
@[simp] theorem State.withPlatform_lastRead (s : State) (p : Platform) : (s.withPlatform p).lastRead = s.lastRead := rfl
@[simp] theorem State.withPlatform_draws (s : State) (p : Platform) : (s.withPlatform p).draws = s.draws := rfl

@[simp] theorem State.withInputs_regs (s : State) (l : List Input) : (s.withInputs l).regs = s.regs := rfl
@[simp] theorem State.withInputs_chain (s : State) (l : List Input) : (s.withInputs l).chain = s.chain := rfl
@[simp] theorem State.withInputs_engine (s : State) (l : List Input) : (s.withInputs l).engine = s.engine := rfl
@[simp] theorem State.withInputs_status (s : State) (l : List Input) : (s.withInputs l).status = s.status := rfl
@[simp] theorem State.withInputs_others (s : State) (l : List Input) : (s.withInputs l).others = s.others := rfl
@[simp] theorem State.withInputs_mem (s : State) (l : List Input) : (s.withInputs l).mem = s.mem := rfl
@[simp] theorem State.withInputs_platform (s : State) (l : List Input) : (s.withInputs l).platform = s.platform := rfl
@[simp] theorem State.withInputs_inputs (s : State) (l : List Input) : (s.withInputs l).inputs = l := rfl
@[simp] theorem State.withInputs_lastRead (s : State) (l : List Input) : (s.withInputs l).lastRead = s.lastRead := rfl
@[simp] theorem State.withInputs_draws (s : State) (l : List Input) : (s.withInputs l).draws = s.draws := rfl

@[simp] theorem State.withLastRead_regs (s : State) (v : Option DWord) : (s.withLastRead v).regs = s.regs := rfl
@[simp] theorem State.withLastRead_chain (s : State) (v : Option DWord) : (s.withLastRead v).chain = s.chain := rfl
@[simp] theorem State.withLastRead_engine (s : State) (v : Option DWord) : (s.withLastRead v).engine = s.engine := rfl
@[simp] theorem State.withLastRead_status (s : State) (v : Option DWord) : (s.withLastRead v).status = s.status := rfl
@[simp] theorem State.withLastRead_others (s : State) (v : Option DWord) : (s.withLastRead v).others = s.others := rfl
@[simp] theorem State.withLastRead_mem (s : State) (v : Option DWord) : (s.withLastRead v).mem = s.mem := rfl
@[simp] theorem State.withLastRead_platform (s : State) (v : Option DWord) : (s.withLastRead v).platform = s.platform := rfl
@[simp] theorem State.withLastRead_inputs (s : State) (v : Option DWord) : (s.withLastRead v).inputs = s.inputs := rfl
@[simp] theorem State.withLastRead_lastRead (s : State) (v : Option DWord) : (s.withLastRead v).lastRead = v := rfl
@[simp] theorem State.withLastRead_draws (s : State) (v : Option DWord) : (s.withLastRead v).draws = s.draws := rfl

@[simp] theorem State.withDraws_regs (s : State) (n : Nat) : (s.withDraws n).regs = s.regs := rfl
@[simp] theorem State.withDraws_chain (s : State) (n : Nat) : (s.withDraws n).chain = s.chain := rfl
@[simp] theorem State.withDraws_engine (s : State) (n : Nat) : (s.withDraws n).engine = s.engine := rfl
@[simp] theorem State.withDraws_status (s : State) (n : Nat) : (s.withDraws n).status = s.status := rfl
@[simp] theorem State.withDraws_others (s : State) (n : Nat) : (s.withDraws n).others = s.others := rfl
@[simp] theorem State.withDraws_mem (s : State) (n : Nat) : (s.withDraws n).mem = s.mem := rfl
@[simp] theorem State.withDraws_platform (s : State) (n : Nat) : (s.withDraws n).platform = s.platform := rfl
@[simp] theorem State.withDraws_inputs (s : State) (n : Nat) : (s.withDraws n).inputs = s.inputs := rfl
@[simp] theorem State.withDraws_lastRead (s : State) (n : Nat) : (s.withDraws n).lastRead = s.lastRead := rfl
@[simp] theorem State.withDraws_draws (s : State) (n : Nat) : (s.withDraws n).draws = n := rfl

@[simp] theorem State.withBlock_regs (s : State) (b : Block) : (s.withBlock b).regs = b.regs := rfl
@[simp] theorem State.withBlock_chain (s : State) (b : Block) : (s.withBlock b).chain = b.chain := rfl
@[simp] theorem State.withBlock_engine (s : State) (b : Block) : (s.withBlock b).engine = b.engine := rfl
@[simp] theorem State.withBlock_status (s : State) (b : Block) : (s.withBlock b).status = b.status := rfl
@[simp] theorem State.withBlock_others (s : State) (b : Block) : (s.withBlock b).others = s.others := rfl
@[simp] theorem State.withBlock_mem (s : State) (b : Block) : (s.withBlock b).mem = s.mem := rfl
@[simp] theorem State.withBlock_platform (s : State) (b : Block) : (s.withBlock b).platform = s.platform := rfl
@[simp] theorem State.withBlock_inputs (s : State) (b : Block) : (s.withBlock b).inputs = s.inputs := rfl
@[simp] theorem State.withBlock_lastRead (s : State) (b : Block) : (s.withBlock b).lastRead = s.lastRead := rfl
@[simp] theorem State.withBlock_draws (s : State) (b : Block) : (s.withBlock b).draws = s.draws := rfl
@[simp] theorem State.withBlock_block (s : State) (b : Block) : (s.withBlock b).block = b := rfl

@[simp] theorem State.block_regs (s : State) : s.block.regs = s.regs := rfl
@[simp] theorem State.block_chain (s : State) : s.block.chain = s.chain := rfl
@[simp] theorem State.block_engine (s : State) : s.block.engine = s.engine := rfl
@[simp] theorem State.block_status (s : State) : s.block.status = s.status := rfl

@[simp] theorem clearStatus_regs (s : State) : (clearStatus s).regs = s.regs := rfl
@[simp] theorem clearStatus_chain (s : State) : (clearStatus s).chain = s.chain := rfl
@[simp] theorem clearStatus_engine (s : State) : (clearStatus s).engine = s.engine := rfl
@[simp] theorem clearStatus_status (s : State) : (clearStatus s).status = Status.clear := rfl
@[simp] theorem clearStatus_others (s : State) : (clearStatus s).others = s.others := rfl
@[simp] theorem clearStatus_mem (s : State) : (clearStatus s).mem = s.mem := rfl
@[simp] theorem clearStatus_platform (s : State) : (clearStatus s).platform = s.platform := rfl
@[simp] theorem clearStatus_inputs (s : State) : (clearStatus s).inputs = s.inputs := rfl
@[simp] theorem clearStatus_lastRead (s : State) : (clearStatus s).lastRead = s.lastRead := rfl
@[simp] theorem clearStatus_draws (s : State) : (clearStatus s).draws = s.draws := rfl

@[simp] theorem dropCommand_regs (s : State) : (dropCommand s).regs = s.regs := rfl
@[simp] theorem dropCommand_chain (s : State) : (dropCommand s).chain = s.chain := rfl
@[simp] theorem dropCommand_engine (s : State) : (dropCommand s).engine = s.engine := rfl
@[simp] theorem dropCommand_status (s : State) : (dropCommand s).status = { s.status with ovr := true } := rfl
@[simp] theorem dropCommand_others (s : State) : (dropCommand s).others = s.others := rfl
@[simp] theorem dropCommand_mem (s : State) : (dropCommand s).mem = s.mem := rfl
@[simp] theorem dropCommand_platform (s : State) : (dropCommand s).platform = s.platform := rfl
@[simp] theorem dropCommand_inputs (s : State) : (dropCommand s).inputs = s.inputs := rfl
@[simp] theorem dropCommand_lastRead (s : State) : (dropCommand s).lastRead = s.lastRead := rfl
@[simp] theorem dropCommand_draws (s : State) : (dropCommand s).draws = s.draws := rfl

@[simp] theorem raiseErr_regs (c : ErrCode) (s : State) : (raiseErr c s).state.regs = s.regs := rfl
@[simp] theorem raiseErr_chain (c : ErrCode) (s : State) : (raiseErr c s).state.chain = s.chain := rfl
@[simp] theorem raiseErr_engine (c : ErrCode) (s : State) : (raiseErr c s).state.engine = s.engine := rfl
@[simp] theorem raiseErr_status (c : ErrCode) (s : State) : (raiseErr c s).state.status = { s.status with err := c } := rfl
@[simp] theorem raiseErr_others (c : ErrCode) (s : State) : (raiseErr c s).state.others = s.others := rfl
@[simp] theorem raiseErr_mem (c : ErrCode) (s : State) : (raiseErr c s).state.mem = s.mem := rfl
@[simp] theorem raiseErr_platform (c : ErrCode) (s : State) : (raiseErr c s).state.platform = s.platform := rfl
@[simp] theorem raiseErr_inputs (c : ErrCode) (s : State) : (raiseErr c s).state.inputs = s.inputs := rfl
@[simp] theorem raiseErr_lastRead (c : ErrCode) (s : State) : (raiseErr c s).state.lastRead = s.lastRead := rfl
@[simp] theorem raiseErr_draws (c : ErrCode) (s : State) : (raiseErr c s).state.draws = s.draws := rfl

@[simp] theorem CmdEnd.done_state (s : State) : (CmdEnd.done s).state = s := rfl
@[simp] theorem CmdEnd.raised_state (s : State) : (CmdEnd.raised s).state = s := rfl

@[simp] theorem State.resetOn_regs (p : Platform) : (State.resetOn p).regs = ⟨0, 0, 0, 0, 0⟩ := rfl
@[simp] theorem State.resetOn_chain (p : Platform) : (State.resetOn p).chain = ChainState.empty := rfl
@[simp] theorem State.resetOn_engine (p : Platform) : (State.resetOn p).engine = ⟨.idle, 0, 0, 0⟩ := rfl
@[simp] theorem State.resetOn_status (p : Platform) : (State.resetOn p).status = Status.clear := rfl
@[simp] theorem State.resetOn_others (p : Platform) :
    (State.resetOn p).others = p.otherPages.map fun _ => Block.atReset := rfl
@[simp] theorem State.resetOn_mem (p : Platform) : (State.resetOn p).mem = [] := rfl
@[simp] theorem State.resetOn_platform (p : Platform) : (State.resetOn p).platform = p := rfl
@[simp] theorem State.resetOn_inputs (p : Platform) : (State.resetOn p).inputs = [] := rfl
@[simp] theorem State.resetOn_lastRead (p : Platform) : (State.resetOn p).lastRead = none := rfl
@[simp] theorem State.resetOn_draws (p : Platform) : (State.resetOn p).draws = 0 := rfl

@[simp] theorem Block.atReset_regs : Block.atReset.regs = ⟨0, 0, 0, 0, 0⟩ := rfl
@[simp] theorem Block.atReset_chain : Block.atReset.chain = ChainState.empty := rfl
@[simp] theorem Block.atReset_engine : Block.atReset.engine = ⟨.idle, 0, 0, 0⟩ := rfl
@[simp] theorem Block.atReset_status : Block.atReset.status = Status.clear := rfl

/-- Two states that agree on every field. -/
theorem State.eq_of_fields (s t : State) (hb : s.block = t.block) (ho : s.others = t.others)
    (hm : s.mem = t.mem) (hp : s.platform = t.platform) (hi : s.inputs = t.inputs)
    (hl : s.lastRead = t.lastRead) (hd : s.draws = t.draws) : s = t := by
  cases s; cases t
  simp only [State.block, Block.mk.injEq] at *
  obtain ⟨h1, h2, h3, h4⟩ := hb
  subst h1 h2 h3 h4 ho hm hp hi hl hd
  rfl

/-- What no command and no register write changes: the other instances and everything outside the
block. -/
def SameOutside (s t : State) : Prop :=
  t.others = s.others ∧ t.platform = s.platform ∧ t.mem = s.mem ∧ t.inputs = s.inputs ∧
  t.lastRead = s.lastRead ∧ t.draws = s.draws

theorem SameOutside.refl (s : State) : SameOutside s s := ⟨rfl, rfl, rfl, rfl, rfl, rfl⟩

theorem SameOutside.trans {s t u : State} (h : SameOutside s t) (g : SameOutside t u) :
    SameOutside s u :=
  ⟨g.1.trans h.1, g.2.1.trans h.2.1, g.2.2.1.trans h.2.2.1, g.2.2.2.1.trans h.2.2.2.1,
    g.2.2.2.2.1.trans h.2.2.2.2.1, g.2.2.2.2.2.trans h.2.2.2.2.2⟩

end Sys2Proof.Machine
end

