-- ==== Sys2Proof/Laws/Commands.lean ====
section
/-! SUPPORT. What each shared operation of the commands can do, said once (42_host_commands.md R91 to
R96). -/

namespace Sys2Proof.Machine

theorem issue_idle (body : State → CmdEnd) (s : State) (h : s.engine.phase = .idle) :
    issue body s = .next (body (clearStatus s)).state := by simp [issue, h]

theorem issue_busy (body : State → CmdEnd) (s : State) (h : s.engine.phase = .ser) :
    issue body s = .next (dropCommand s) := by simp [issue, h]

/-- Everything command dispatch can do: a drop while BUSY, else the body after the status clearing. -/
theorem issue_cases (body : State → CmdEnd) (s t : State) (h : issue body s = .next t) :
    (s.engine.phase = .ser ∧ t = dropCommand s) ∨
    (s.engine.phase = .idle ∧ t = (body (clearStatus s)).state) := by
  cases hp : s.engine.phase with
  | idle => rw [issue_idle body s hp] at h; exact .inr ⟨rfl, (Host.Outcome.next.inj h).symm⟩
  | ser => rw [issue_busy body s hp] at h; exact .inl ⟨rfl, (Host.Outcome.next.inj h).symm⟩

/-- Everything BUILD's body can do (R93). -/
theorem buildBody_cases (s : State) :
    (s.regs.srcLen.toNat = 0 ∧ buildBody s = raiseErr .zeroLen (s.withChain ChainState.empty)) ∨
    (s.regs.srcLen.toNat ≠ 0 ∧
      Config.addrSpace < s.regs.srcAddr.toNat + s.regs.srcLen.toNat ∧
      buildBody s = raiseErr .srcOvf (s.withChain ChainState.empty)) ∨
    (s.regs.srcLen.toNat ≠ 0 ∧
      s.regs.srcAddr.toNat + s.regs.srcLen.toNat ≤ Config.addrSpace ∧
      buildBody s = .done (s.withChain (latchChain s.regs.srcAddr s.regs.srcLen))) := by
  by_cases h0 : s.regs.srcLen.toNat = 0
  · exact .inl ⟨h0, by rw [buildBody]; exact if_pos h0⟩
  · by_cases h1 : Config.addrSpace < s.regs.srcAddr.toNat + s.regs.srcLen.toNat
    · exact .inr (.inl ⟨h0, h1, by rw [buildBody]; exact (if_neg h0).trans (if_pos h1)⟩)
    · exact .inr (.inr ⟨h0, Nat.le_of_not_lt h1, by
        rw [buildBody]; exact (if_neg h0).trans (if_neg h1)⟩)

/-- Everything SERIALIZE's body can do, with what each check says (R94). -/
theorem serializeBody_cases (s : State) :
    (s.chain.valid = false ∧ serializeBody s = raiseErr .noChain s) ∨
    (s.chain.valid = true ∧ s.regs.tblBase.toNat % 8 ≠ 0 ∧
      serializeBody s = raiseErr .tblAlign s) ∨
    (s.chain.valid = true ∧ s.regs.tblBase.toNat % 8 = 0 ∧
      s.regs.tblCap.toNat < Config.recSize * s.chain.count.toNat ∧
      serializeBody s = raiseErr .tblSmall s) ∨
    (s.chain.valid = true ∧ s.regs.tblBase.toNat % 8 = 0 ∧
      Config.recSize * s.chain.count.toNat ≤ s.regs.tblCap.toNat ∧
      Config.addrSpace < s.regs.tblBase.toNat + Config.recSize * s.chain.count.toNat ∧
      serializeBody s = raiseErr .tblOvf s) ∨
    (s.chain.valid = true ∧ s.regs.tblBase.toNat % 8 = 0 ∧
      Config.recSize * s.chain.count.toNat ≤ s.regs.tblCap.toNat ∧
      s.regs.tblBase.toNat + Config.recSize * s.chain.count.toNat ≤ Config.addrSpace ∧
      serializeBody s = .done (s.withEngine ⟨.ser, 0, s.regs.tblBase, 0⟩)) := by
  unfold serializeBody
  cases hv : s.chain.valid with
  | false => exact .inl ⟨rfl, by simp⟩
  | true =>
    by_cases h8 : s.regs.tblBase.toNat % 8 = 0
    · by_cases hc : s.regs.tblCap.toNat < Config.recSize * s.chain.count.toNat
      · exact .inr (.inr (.inl ⟨rfl, h8, hc, by simp [h8, hc]⟩))
      · by_cases ho : Config.addrSpace <
          s.regs.tblBase.toNat + Config.recSize * s.chain.count.toNat
        · exact .inr (.inr (.inr (.inl ⟨rfl, h8, by omega, ho, by simp [h8, hc, ho]⟩)))
        · exact .inr (.inr (.inr (.inr ⟨rfl, h8, by omega, by omega, by simp [h8, hc, ho]⟩)))
    · exact .inr (.inl ⟨rfl, h8, by simp [h8]⟩)

/-- Everything BUILD_SERIALIZE's body can do (R95): BUILD's error, or SERIALIZE's body after BUILD. -/
theorem buildSerializeBody_cases (s : State) :
    (∃ t, buildBody s = .raised t ∧ buildSerializeBody s = .raised t) ∨
    (∃ t, buildBody s = .done t ∧ buildSerializeBody s = serializeBody t) := by
  unfold buildSerializeBody
  cases h : buildBody s with
  | raised t => exact .inl ⟨t, rfl, rfl⟩
  | done t => exact .inr ⟨t, rfl, rfl⟩

/-- A command's body, as `exec` calls it. -/
def bodyOf : Instr → State → CmdEnd
  | .nop => .done
  | .build => buildBody
  | .serialize => serializeBody
  | .buildSerialize => buildSerializeBody
  | .discard => discardBody

theorem exec_eq_issue (i : Instr) (s : State) : exec i s = issue (bodyOf i) s := by
  cases i <;> rfl

/-- A command's body leaves the other instances and everything outside the block alone. -/
theorem bodyOf_outside (i : Instr) (s : State) : SameOutside s (bodyOf i s).state := by
  have hb : SameOutside s (buildBody s).state := by
    rcases buildBody_cases s with ⟨-, h⟩ | ⟨-, -, h⟩ | ⟨-, -, h⟩ <;> rw [h] <;>
      exact ⟨rfl, rfl, rfl, rfl, rfl, rfl⟩
  have hs : ∀ u : State, SameOutside u (serializeBody u).state := by
    intro u
    rcases serializeBody_cases u with ⟨-, h⟩ | ⟨-, -, h⟩ | ⟨-, -, -, h⟩ | ⟨-, -, -, -, h⟩ |
      ⟨-, -, -, -, h⟩ <;> rw [h] <;> exact ⟨rfl, rfl, rfl, rfl, rfl, rfl⟩
  cases i with
  | nop => exact SameOutside.refl s
  | discard => exact ⟨rfl, rfl, rfl, rfl, rfl, rfl⟩
  | serialize => exact hs s
  | build => exact hb
  | buildSerialize =>
    show SameOutside s (buildSerializeBody s).state
    rcases buildSerializeBody_cases s with ⟨u, h, h'⟩ | ⟨u, h, h'⟩ <;> rw [h] at hb <;> rw [h']
    · exact hb
    · exact hb.trans (hs u)

/-- So does command dispatch around such a body. -/
theorem issue_outside (body : State → CmdEnd) (s t : State)
    (hb : ∀ u : State, SameOutside u (body u).state) (h : issue body s = .next t) :
    SameOutside s t := by
  rcases issue_cases body s t h with ⟨-, rfl⟩ | ⟨-, rfl⟩
  · exact ⟨rfl, rfl, rfl, rfl, rfl, rfl⟩
  · exact hb (clearStatus s)

/-- Every command answers a next state in every state. -/
theorem exec_next (i : Instr) (s : State) : ∃ t, exec i s = .next t := by
  rw [exec_eq_issue]
  cases hp : s.engine.phase with
  | idle => exact ⟨_, issue_idle _ s hp⟩
  | ser => exact ⟨_, issue_busy _ s hp⟩

end Sys2Proof.Machine
end

