-- ==== Sys2Proof/Laws/Instances.lean ====
section
/-! SUPPORT. The exchange of two instances and what `onInstance` can do, said once (60_exceptions.md
R119). -/

namespace Sys2Proof.Machine

/-! ### The exchange -/

@[simp] theorem Platform.focus_zero (p : Platform) : p.focus 0 = p := rfl
@[simp] theorem State.focus_zero (s : State) : s.focus 0 = s := rfl

theorem Platform.focus_some (p : Platform) (k : Nat) (q : BitVec 26) (h : p.otherPages[k]? = some q) :
    p.focus (k + 1) = { p with regPage := q, otherPages := p.otherPages.set k p.regPage } := by
  simp [Platform.focus, h]

theorem State.focus_some (s : State) (k : Nat) (b : Block) (h : s.others[k]? = some b) :
    s.focus (k + 1) =
      ((s.withBlock b).withOthers (s.others.set k s.block)).withPlatform
        (s.platform.focus (k + 1)) := by
  simp [State.focus, h]

theorem State.focus_none (s : State) (k : Nat) (h : s.others[k]? = none) : s.focus (k + 1) = s := by
  simp [State.focus, h]

/-- Exchanging twice changes nothing. -/
@[simp] theorem Platform.focus_focus (p : Platform) (k : Nat) : (p.focus k).focus k = p := by
  cases k with
  | zero => rfl
  | succ k =>
    cases h : p.otherPages[k]? with
    | none => simp [Platform.focus, h]
    | some q =>
      obtain ⟨hk, rfl⟩ := List.getElem?_eq_some_iff.mp h
      rw [Platform.focus_some p k _ h]
      simp [Platform.focus, hk]

/-- Exchanging twice changes nothing. -/
@[simp] theorem State.focus_focus (s : State) (k : Nat) : (s.focus k).focus k = s := by
  cases k with
  | zero => rfl
  | succ k =>
    cases h : s.others[k]? with
    | none => rw [State.focus_none s k h, State.focus_none s k h]
    | some b =>
      obtain ⟨hk, rfl⟩ := List.getElem?_eq_some_iff.mp h
      rw [State.focus_some s k _ h, State.focus_some _ k s.block (by simp [hk])]
      have he : s.others.set k s.others[k] = s.others := List.set_getElem_self hk
      apply State.eq_of_fields <;> try simp [State.block]
      exact he

@[simp] theorem State.focus_mem (s : State) (k : Nat) : (s.focus k).mem = s.mem := by
  cases k with
  | zero => rfl
  | succ k => unfold State.focus; simp only; split <;> rfl

@[simp] theorem State.focus_inputs (s : State) (k : Nat) : (s.focus k).inputs = s.inputs := by
  cases k with
  | zero => rfl
  | succ k => unfold State.focus; simp only; split <;> rfl

@[simp] theorem State.focus_lastRead (s : State) (k : Nat) : (s.focus k).lastRead = s.lastRead := by
  cases k with
  | zero => rfl
  | succ k => unfold State.focus; simp only; split <;> rfl

@[simp] theorem State.focus_draws (s : State) (k : Nat) : (s.focus k).draws = s.draws := by
  cases k with
  | zero => rfl
  | succ k => unfold State.focus; simp only; split <;> rfl

@[simp] theorem State.focus_others_length (s : State) (k : Nat) :
    (s.focus k).others.length = s.others.length := by
  cases k with
  | zero => rfl
  | succ k => unfold State.focus; simp only; split <;> simp

@[simp] theorem State.focus_instances (s : State) (k : Nat) :
    (s.focus k).instances = s.instances := by simp [State.instances]

@[simp] theorem State.focus_withInputs (s : State) (k : Nat) (l : List Input) :
    (s.withInputs l).focus k = (s.focus k).withInputs l := by
  cases k with
  | zero => rfl
  | succ k =>
    cases h : s.others[k]? with
    | none => rw [State.focus_none s k h]; exact State.focus_none (s.withInputs l) k h
    | some b => rw [State.focus_some s k b h]; exact State.focus_some (s.withInputs l) k b h

@[simp] theorem State.focus_withLastRead (s : State) (k : Nat) (v : Option DWord) :
    (s.withLastRead v).focus k = (s.focus k).withLastRead v := by
  cases k with
  | zero => rfl
  | succ k =>
    cases h : s.others[k]? with
    | none => rw [State.focus_none s k h]; exact State.focus_none (s.withLastRead v) k h
    | some b => rw [State.focus_some s k b h]; exact State.focus_some (s.withLastRead v) k b h

@[simp] theorem Platform.focus_regions (p : Platform) (k : Nat) :
    (p.focus k).regions = p.regions := by
  cases k with
  | zero => rfl
  | succ k => unfold Platform.focus; simp only; split <;> rfl

/-- The instance brought to the front. -/
theorem State.focus_block (s : State) (k : Nat) (b : Block) (h : s.blockAt k = some b) :
    (s.focus k).block = b := by
  cases k with
  | zero => exact Option.some.inj h
  | succ k => rw [State.focus_some s k b h]; rfl

/-- The platform the exchanged state stands on. -/
theorem State.focus_platform (s : State) (k : Nat) (h : k < s.instances) :
    (s.focus k).platform = s.platform.focus k := by
  cases k with
  | zero => rfl
  | succ k =>
    have hk : k < s.others.length := by simpa [State.instances] using h
    rw [State.focus_some s k _ (List.getElem?_eq_getElem hk)]; rfl

/-- Instances are where they were, except 0 and `k`. -/
theorem State.focus_blockAt (s : State) (k j : Nat) (h : k < s.instances) :
    (s.focus k).blockAt j =
      if j = 0 then s.blockAt k else if j = k then s.blockAt 0 else s.blockAt j := by
  cases k with
  | zero =>
    cases j with
    | zero => rfl
    | succ j => simp
  | succ k =>
    have hk : k < s.others.length := by simpa [State.instances] using h
    rw [State.focus_some s k _ (List.getElem?_eq_getElem hk)]
    cases j with
    | zero => simp [State.blockAt, State.block, hk]
    | succ j =>
      simp only [State.blockAt, State.withPlatform_others, State.withOthers_others,
        Nat.add_right_cancel_iff, Nat.succ_ne_zero, if_false]
      by_cases hj : j = k
      · subst hj; simp [hk]
      · simp [hj, Ne.symm hj]

theorem State.blockAt_isSome (s : State) (k : Nat) : (s.blockAt k).isSome = true ↔ k < s.instances := by
  cases k with
  | zero => simp [State.blockAt, State.instances]
  | succ k => simp [State.blockAt, State.instances]

/-! ### The windows -/

/-- The exchange does not move the windows. -/
theorem Platform.focus_any (p : Platform) (k : Nat) (f : BitVec 26 → Bool) :
    ((p.focus k).regPage :: (p.focus k).otherPages).any f = (p.regPage :: p.otherPages).any f := by
  cases k with
  | zero => rfl
  | succ k =>
    cases h : p.otherPages[k]? with
    | none => simp [Platform.focus, h]
    | some q =>
      obtain ⟨hk, rfl⟩ := List.getElem?_eq_some_iff.mp h
      rw [Platform.focus_some p k _ h]
      rw [Bool.eq_iff_iff]
      simp only [List.any_cons, Bool.or_eq_true, List.any_eq_true]
      constructor
      · rintro (h | ⟨x, hx, h⟩)
        · exact .inr ⟨_, List.getElem_mem hk, h⟩
        · rcases List.mem_or_eq_of_mem_set hx with hx | rfl
          · exact .inr ⟨x, hx, h⟩
          · exact .inl h
      · rintro (hf | ⟨x, hx, hf⟩)
        · exact .inr ⟨_, List.mem_set hk _, hf⟩
        · obtain ⟨j, hj, rfl⟩ := List.getElem_of_mem hx
          by_cases hjk : j = k
          · subst hjk; exact .inl hf
          · exact .inr ⟨_, List.mem_of_getElem? (i := j) (by
              rw [List.getElem?_set_ne (Ne.symm hjk)]; exact List.getElem?_eq_getElem hj), hf⟩

@[simp] theorem touchesAnyWindow_focus (p : Platform) (k a n : Nat) :
    touchesAnyWindow (p.focus k) a n = touchesAnyWindow p a n := p.focus_any k _

@[simp] theorem admitsStore_focus (p : Platform) (k a n : Nat) :
    admitsStore (p.focus k) a n = admitsStore p a n := by simp [admitsStore]

@[simp] theorem admitsLoad_focus (p : Platform) (k a n : Nat) :
    admitsLoad (p.focus k) a n = admitsLoad p a n := by simp [admitsLoad]

/-- An access lies in no window exactly when it touches none. -/
theorem windowOf_eq_none (p : Platform) (a n : Nat) :
    windowOf p a n = none ↔ touchesAnyWindow p a n = false := by
  simp [windowOf, touchesAnyWindow, List.findIdx?_eq_none_iff]

/-- Instance 0's window is looked at first. -/
theorem windowOf_own (p : Platform) (a n : Nat) (h : touchesWindow p a n = true) :
    windowOf p a n = some 0 := by
  have h : touchesPage p.regPage a n = true := h
  simp [windowOf, List.findIdx?_cons, h]

theorem touchesWindow_of_touchesAny (p : Platform) (a n : Nat) (h : touchesAnyWindow p a n = false) :
    touchesWindow p a n = false := by
  simp only [touchesAnyWindow, List.any_cons, Bool.or_eq_false_iff] at h
  exact h.1

/-- The window an access lies in is the one it touches. -/
theorem windowOf_touches (p : Platform) (a n k : Nat) (h : windowOf p a n = some k) :
    k < p.instances ∧ touchesWindow (p.focus k) a n = true := by
  obtain ⟨hk, ht, -⟩ := List.findIdx?_eq_some_iff_getElem.mp h
  refine ⟨by simpa [Platform.instances] using hk, ?_⟩
  cases k with
  | zero => exact ht
  | succ k =>
    have hk : k < p.otherPages.length := by simpa using hk
    rw [Platform.focus_some p k _ (List.getElem?_eq_getElem hk)]
    exact ht

/-! ### `onInstance` -/

@[simp] theorem onInstance_zero (f : State → Host.Outcome State Fault Refusal) (s : State) :
    onInstance 0 f s = f s := by
  have h : 0 < s.instances := by simp [State.instances]
  simp only [onInstance, if_pos h, State.focus_zero]
  cases f s <;> rfl

theorem onInstance_next (k : Nat) (f : State → Host.Outcome State Fault Refusal) (s u : State)
    (hk : k < s.instances) (h : f (s.focus k) = .next u) : onInstance k f s = .next (u.focus k) := by
  simp [onInstance, hk, h]

/-- Everything `onInstance` can do when it answers a next state. -/
theorem onInstance_cases (k : Nat) (f : State → Host.Outcome State Fault Refusal) (s t : State)
    (h : onInstance k f s = .next t) :
    (s.instances ≤ k ∧ t = s) ∨
    (k < s.instances ∧ ∃ u, f (s.focus k) = .next u ∧ t = u.focus k) := by
  unfold onInstance at h
  split at h
  · rename_i hk
    cases hf : f (s.focus k) with
    | next u => rw [hf] at h; exact .inr ⟨hk, u, rfl, (Host.Outcome.next.inj h).symm⟩
    | fault e => rw [hf] at h; cases h
    | refused r => rw [hf] at h; cases h
  · rename_i hk
    exact .inl ⟨Nat.le_of_not_lt hk, (Host.Outcome.next.inj h).symm⟩

/-- What running on instance `k` leaves alone, for an `f` that leaves the other instances and the platform
alone: every instance but `k`, and the platform (60_exceptions.md R119). -/
theorem onInstance_frame (k : Nat) (s u : State) (hk : k < s.instances)
    (ho : u.others = (s.focus k).others) (hp : u.platform = (s.focus k).platform) :
    (u.focus k).platform = s.platform ∧ (u.focus k).others.length = s.others.length ∧
    (u.focus k).blockAt k = some u.block ∧
    ∀ j, j ≠ k → (u.focus k).blockAt j = s.blockAt j := by
  have hu : k < u.instances := by
    have : u.instances = s.instances := by rw [State.instances, ho, State.focus_others_length]; rfl
    rw [this]; exact hk
  refine ⟨?_, ?_, ?_, fun j hj => ?_⟩
  · rw [State.focus_platform u k hu, hp, State.focus_platform s k hk, Platform.focus_focus]
  · rw [State.focus_others_length, ho, State.focus_others_length]
  · rw [State.focus_blockAt u k k hu]
    by_cases h0 : k = 0
    · simp [h0, State.blockAt]
    · simp [h0, State.blockAt]
  · have hb : ∀ i, i ≠ 0 → u.blockAt i = (s.focus k).blockAt i := fun i hi => by
      cases i with
      | zero => exact absurd rfl hi
      | succ i => simp only [State.blockAt, ho]
    rw [State.focus_blockAt u k j hu]
    by_cases h0 : j = 0
    · subst h0
      rw [if_pos rfl, hb k (fun h => hj h.symm), State.focus_blockAt s k k hk,
        if_neg (fun h => hj h.symm), if_pos rfl]
    · rw [if_neg h0, if_neg hj, hb j h0, State.focus_blockAt s k j hk, if_neg h0, if_neg hj]

end Sys2Proof.Machine
end

