-- ==== Sys2Proof/Laws/Memory.lean ====
section
/-! SUPPORT. Byte lists and memory: a write is read back, leaves every other address alone and keeps the
canonical form. -/

namespace Sys2Proof.Machine

/-! ### Byte lists (00_scope.md R13) -/

@[simp] theorem leBytes_length (n v : Nat) : (leBytes n v).length = n := by
  induction n generalizing v with
  | zero => rfl
  | succ n ih => simp [leBytes, ih]

/-- `fromLE` inverts `LE_n` on the numbers that n bytes hold. -/
theorem fromLE_leBytes (n v : Nat) (h : v < 256 ^ n) : fromLE (leBytes n v) = v := by
  induction n generalizing v with
  | zero => simp at h; simp [leBytes, fromLE, h]
  | succ n ih =>
    have hd : v / 256 < 256 ^ n := by
      apply Nat.div_lt_of_lt_mul; rw [Nat.pow_succ] at h; omega
    simp only [leBytes, fromLE, ih _ hd, BitVec.toNat_ofNat]
    omega

/-- `LE_n` inverts `fromLE` on n bytes. -/
theorem leBytes_fromLE (bs : List Byte) : leBytes bs.length (fromLE bs) = bs := by
  induction bs with
  | nil => rfl
  | cons b bs ih =>
    have hb := b.isLt
    have hq : (b.toNat + 256 * fromLE bs) / 256 = fromLE bs := by omega
    have hm : BitVec.ofNat 8 (b.toNat + 256 * fromLE bs) = b := by
      apply BitVec.eq_of_toNat_eq; simp only [BitVec.toNat_ofNat]; omega
    simp [leBytes, fromLE, hq, hm, ih]

theorem fromLE_lt (bs : List Byte) : fromLE bs < 256 ^ bs.length := by
  induction bs with
  | nil => simp [fromLE]
  | cons b bs ih =>
    have hb := b.isLt
    simp only [fromLE, List.length_cons, Nat.pow_succ]
    omega

/-! ### One byte -/

@[simp] theorem memGet_memPut_same (m : Memory) (a : Nat) (b : Byte) :
    memGet (memPut m a b) a = some b := by
  induction m with
  | nil => simp [memPut, memGet]
  | cons c m ih =>
    simp only [memPut]
    split
    · simp [memGet]
    · split
      · simp [memGet]
      · rename_i h1 h2
        simp [memGet, ih, Ne.symm h2]

theorem memGet_memPut_other (m : Memory) (a x : Nat) (b : Byte) (h : x ≠ a) :
    memGet (memPut m a b) x = memGet m x := by
  induction m with
  | nil => simp [memPut, memGet, Ne.symm h]
  | cons c m ih =>
    simp only [memPut]
    split
    · simp [memGet, Ne.symm h]
    · split
      · rename_i h1 h2
        subst h2
        simp [memGet, Ne.symm h]
      · simp [memGet, ih]

/-- What a cell of a memory after a one-byte write can be. -/
theorem mem_memPut (m : Memory) (a : Nat) (b : Byte) (d : Host.Cell) (h : d ∈ memPut m a b) :
    d = (a, b) ∨ d ∈ m := by
  induction m with
  | nil => simpa [memPut] using h
  | cons c m ih =>
    simp only [memPut] at h
    split at h
    · simpa using h
    · split at h
      · rcases List.mem_cons.mp h with h | h
        · exact .inl h
        · exact .inr (List.mem_cons_of_mem _ h)
      · rcases List.mem_cons.mp h with h | h
        · exact .inr (by simp [h])
        · exact (ih h).imp_right (List.mem_cons_of_mem _)

theorem memPut_wf (m : Memory) (a : Nat) (b : Byte) (ha : a < Config.addrSpace)
    (h : Memory.wf m) : Memory.wf (memPut m a b) := by
  refine ⟨?_, fun d hd => ?_⟩
  · have hp := h.1
    clear h
    induction m with
    | nil => simp [memPut]
    | cons c m ih =>
      rw [List.pairwise_cons] at hp
      simp only [memPut]
      split
      · rename_i h1
        refine List.pairwise_cons.mpr ⟨fun d hd => ?_, List.pairwise_cons.mpr hp⟩
        rcases List.mem_cons.mp hd with rfl | hd
        · exact h1
        · exact Nat.lt_trans h1 (hp.1 d hd)
      · split
        · rename_i h1 h2
          exact List.pairwise_cons.mpr ⟨fun d hd => h2 ▸ hp.1 d hd, hp.2⟩
        · rename_i h1 h2
          refine List.pairwise_cons.mpr ⟨fun d hd => ?_, ih hp.2⟩
          rcases mem_memPut m a b d hd with rfl | hd
          · exact Nat.lt_of_le_of_ne (Nat.le_of_not_lt h1) (Ne.symm h2)
          · exact hp.1 d hd
  · rcases mem_memPut m a b d hd with rfl | hd
    · exact ha
    · exact h.2 d hd

/-! ### Byte lists in memory -/

theorem memGet_memPutBytes_outside (m : Memory) (a x : Nat) (bs : List Byte)
    (h : x < a ∨ a + bs.length ≤ x) : memGet (memPutBytes m a bs) x = memGet m x := by
  induction bs generalizing m a with
  | nil => rfl
  | cons b bs ih =>
    simp only [List.length_cons] at h
    rw [memPutBytes, ih _ _ (by omega), memGet_memPut_other _ _ _ _ (by omega)]

theorem memGet_memPutBytes_inside (m : Memory) (a j : Nat) (bs : List Byte) (h : j < bs.length) :
    memGet (memPutBytes m a bs) (a + j) = bs[j]? := by
  induction bs generalizing m a j with
  | nil => simp at h
  | cons b bs ih =>
    cases j with
    | zero =>
      rw [memPutBytes, memGet_memPutBytes_outside _ _ _ _ (by omega)]
      simp
    | succ j =>
      simp only [List.length_cons] at h
      rw [memPutBytes, show a + (j + 1) = a + 1 + j by omega, ih _ _ _ (by omega)]
      simp

theorem memPutBytes_wf (m : Memory) (a : Nat) (bs : List Byte)
    (ha : a + bs.length ≤ Config.addrSpace) (h : Memory.wf m) : Memory.wf (memPutBytes m a bs) := by
  induction bs generalizing m a with
  | nil => exact h
  | cons b bs ih =>
    simp only [List.length_cons] at ha
    exact ih _ _ (by omega) (memPut_wf m a b (by omega) h)

theorem memWrite_wf (m : Memory) (a n v : Nat) (ha : a + n ≤ Config.addrSpace)
    (h : Memory.wf m) : Memory.wf (memWrite m a n v) :=
  memPutBytes_wf m a _ (by simpa using ha) h

/-- `MemWrite` leaves every byte outside its n bytes alone. -/
theorem memGet_memWrite_outside (m : Memory) (a n v x : Nat) (h : x < a ∨ a + n ≤ x) :
    memGet (memWrite m a n v) x = memGet m x :=
  memGet_memPutBytes_outside m a x _ (by simpa using h)

/-- `MemWrite` puts byte j of the value at address a + j. -/
theorem memGet_memWrite_inside (m : Memory) (a n v j : Nat) (h : j < n) :
    memGet (memWrite m a n v) (a + j) = (leBytes n v)[j]? :=
  memGet_memPutBytes_inside m a j _ (by simpa using h)

/-! ### A masked write -/

theorem memGet_memPutMasked_outside (k0 : BitVec 8) (m : Memory) (a k x : Nat) (bs : List Byte)
    (h : x < a ∨ a + bs.length ≤ x) : memGet (memPutMasked k0 m a k bs) x = memGet m x := by
  induction bs generalizing m a k with
  | nil => rfl
  | cons b bs ih =>
    simp only [List.length_cons] at h
    rw [memPutMasked, ih _ _ _ (by omega)]
    split
    · exact memGet_memPut_other _ _ _ _ (by omega)
    · rfl

/-- Each byte of a masked write is the new or the old one. -/
theorem memGet_memPutMasked_inside (k0 : BitVec 8) (m : Memory) (a k j : Nat) (bs : List Byte)
    (h : j < bs.length) :
    memGet (memPutMasked k0 m a k bs) (a + j) = bs[j]? ∨
      memGet (memPutMasked k0 m a k bs) (a + j) = memGet m (a + j) := by
  induction bs generalizing m a k j with
  | nil => simp at h
  | cons b bs ih =>
    cases j with
    | zero =>
      rw [memPutMasked, memGet_memPutMasked_outside _ _ _ _ _ _ (by omega)]
      split
      · left; simp
      · right; rfl
    | succ j =>
      simp only [List.length_cons] at h
      rw [memPutMasked, show a + (j + 1) = a + 1 + j by omega]
      refine (ih _ _ _ _ (by omega)).imp (by simp) fun h' => h'.trans ?_
      split
      · exact memGet_memPut_other _ _ _ _ (by omega)
      · rfl

theorem memPutMasked_wf (k0 : BitVec 8) (m : Memory) (a k : Nat) (bs : List Byte)
    (ha : a + bs.length ≤ Config.addrSpace) (h : Memory.wf m) :
    Memory.wf (memPutMasked k0 m a k bs) := by
  induction bs generalizing m a k with
  | nil => exact h
  | cons b bs ih =>
    simp only [List.length_cons] at ha
    refine ih _ _ _ (by omega) ?_
    split
    · exact memPut_wf m a b (by omega) h
    · exact h

end Sys2Proof.Machine
end

