-- ==== Sys2Proof/Laws/Engine.lean ====
section
/-! SUPPORT. What the engine's turn can do, said once (42_host_commands.md R97). -/

namespace Sys2Proof.Machine

theorem recordAt_lt (s : State) (i : Nat) (r : Record) (h : recordAt s i = some r) :
    s.chain.valid = true ∧ i < s.chain.count.toNat ∧ (heldChain s)[i]? = some r := by
  unfold recordAt at h
  split at h
  · rename_i hc; exact ⟨hc.1, hc.2, h⟩
  · cases h

/-- When the engine writes, and what: PHASE = SER, record SER_IDX exists, the table is clear of the
windows and memory admits the 8 bytes. -/
theorem engineTurn_write (s : State) (a : Nat) (r : Record) (h : engineTurn s = .write a r) :
    s.engine.phase = .ser ∧ recordAt s s.engine.serIdx.toNat = some r ∧ a = nextRecordAddr s ∧
    touchesAnyWindow s.platform s.engine.serBase.toNat (Config.recSize * s.chain.count.toNat) = false ∧
    admitsStore s.platform a Config.recSize = true := by
  unfold engineTurn at h
  split at h
  · cases h
  · rename_i hp
    split at h
    · cases h
    · rename_i r' hr
      split at h
      · cases h
      · rename_i hw
        split at h
        · rename_i ha
          obtain ⟨rfl, rfl⟩ := EngineTurn.write.inj h
          exact ⟨hp, hr, rfl, by simpa using hw, ha⟩
        · cases h

theorem engineTurn_idle (s : State) (h : s.engine.phase = .idle) : engineTurn s = .disabled := by
  simp [engineTurn, h]

theorem engineTurn_of_write (s : State) (r : Record) (hp : s.engine.phase = .ser)
    (hr : recordAt s s.engine.serIdx.toNat = some r)
    (hw : touchesAnyWindow s.platform s.engine.serBase.toNat
      (Config.recSize * s.chain.count.toNat) = false)
    (ha : admitsStore s.platform (nextRecordAddr s) Config.recSize = true) :
    engineTurn s = .write (nextRecordAddr s) r := by
  simp [engineTurn, hp, hr, hw, ha]

/-- The inputs still to come do not matter to the engine. -/
@[simp] theorem engineTurn_withInputs (s : State) (l : List Input) :
    engineTurn (s.withInputs l) = engineTurn s := rfl

@[simp] theorem heldChain_withInputs (s : State) (l : List Input) :
    heldChain (s.withInputs l) = heldChain s := rfl

@[simp] theorem recordAt_withInputs (s : State) (l : List Input) (i : Nat) :
    recordAt (s.withInputs l) i = recordAt s i := rfl

/-- Everything the engine's turn can do when it answers a next state: nothing, or one record. -/
theorem engineStep_cases (s t : State) (h : engineStep s = .next t) :
    t = s ∨ ∃ a r, engineTurn s = .write a r ∧
      t = advanceEngine (s.withMem (memWrite s.mem a Config.recSize (rec64 r).toNat)) := by
  unfold engineStep at h
  split at h
  · exact .inl (Host.Outcome.next.inj h).symm
  · exact .inl (Host.Outcome.next.inj h).symm
  · exact .inl (Host.Outcome.next.inj h).symm
  · cases h
  · rename_i a r hw
    exact .inr ⟨a, r, hw, (Host.Outcome.next.inj h).symm⟩

@[simp] theorem advanceEngine_regs (s : State) : (advanceEngine s).regs = s.regs := by
  simp only [advanceEngine]; split <;> rfl
@[simp] theorem advanceEngine_chain (s : State) : (advanceEngine s).chain = s.chain := by
  simp only [advanceEngine]; split <;> rfl
@[simp] theorem advanceEngine_others (s : State) : (advanceEngine s).others = s.others := by
  simp only [advanceEngine]; split <;> rfl
@[simp] theorem advanceEngine_mem (s : State) : (advanceEngine s).mem = s.mem := by
  simp only [advanceEngine]; split <;> rfl
@[simp] theorem advanceEngine_platform (s : State) : (advanceEngine s).platform = s.platform := by
  simp only [advanceEngine]; split <;> rfl
@[simp] theorem advanceEngine_inputs (s : State) : (advanceEngine s).inputs = s.inputs := by
  simp only [advanceEngine]; split <;> rfl
@[simp] theorem advanceEngine_lastRead (s : State) : (advanceEngine s).lastRead = s.lastRead := by
  simp only [advanceEngine]; split <;> rfl
@[simp] theorem advanceEngine_draws (s : State) : (advanceEngine s).draws = s.draws := by
  simp only [advanceEngine]; split <;> rfl
@[simp] theorem advanceEngine_serBase (s : State) :
    (advanceEngine s).engine.serBase = s.engine.serBase := by
  simp only [advanceEngine]; split <;> rfl
@[simp] theorem advanceEngine_serIdx (s : State) :
    (advanceEngine s).engine.serIdx = BitVec.ofNat 32 (s.engine.serIdx.toNat + 1) := by
  simp only [advanceEngine]; split <;> rfl
@[simp] theorem advanceEngine_bytesOut (s : State) : (advanceEngine s).engine.bytesOut =
    BitVec.ofNat 32 (Config.recSize * (s.engine.serIdx.toNat + 1)) := by
  simp only [advanceEngine]; split <;> rfl

@[simp] theorem advanceEngine_ovr (s : State) : (advanceEngine s).status.ovr = s.status.ovr := by
  simp only [advanceEngine]; split <;> rfl
@[simp] theorem advanceEngine_err (s : State) : (advanceEngine s).status.err = s.status.err := by
  simp only [advanceEngine]; split <;> rfl

/-- PHASE and the status after a record: the last one ends the serialization (20_memory.md R43). -/
theorem advanceEngine_last (s : State) (h : s.engine.serIdx.toNat + 1 = s.chain.count.toNat) :
    (advanceEngine s).engine.phase = .idle ∧
    (advanceEngine s).status = { s.status with done := true } := by
  simp [advanceEngine, h]

theorem advanceEngine_notLast (s : State) (h : s.engine.serIdx.toNat + 1 ≠ s.chain.count.toNat) :
    (advanceEngine s).engine.phase = s.engine.phase ∧ (advanceEngine s).status = s.status := by
  simp [advanceEngine, h]

/-- The engine's turn leaves the other instances, the platform, the inputs and the last value read. -/
theorem engineStep_frame (s t : State) (h : engineStep s = .next t) :
    t.others = s.others ∧ t.platform = s.platform ∧ t.inputs = s.inputs ∧ t.lastRead = s.lastRead ∧
    t.draws = s.draws ∧ t.regs = s.regs ∧ t.chain = s.chain ∧
    t.engine.serBase = s.engine.serBase := by
  rcases engineStep_cases s t h with rfl | ⟨a, r, -, rfl⟩ <;> simp

/-! ### Which engine moves when nothing waits -/

theorem canStep_of_write (s : State) (a : Nat) (r : Record) (h : engineTurn s = .write a r) :
    canStep s = true := by simp [canStep, h]

theorem canStep_idle (s : State) (h : s.engine.phase = .idle) : canStep s = false := by
  simp [canStep, engineTurn_idle s h]

/-- An engine that has a step moves: instance 0's first. -/
theorem engineMove_own (s : State) (h : canStep s = true) : engineMove s = engineStep s := by
  have hn : nextEngine s = some 0 := by
    simp [nextEngine, State.instances, List.range_succ_eq_map, h]
  simp [engineMove, hn]

theorem engineMove_none (s : State) (h : ∀ k, k < s.instances → canStep (s.focus k) = false) :
    engineMove s = .next s := by
  have hn : nextEngine s = none := by
    simp only [nextEngine, List.find?_eq_none, List.mem_range, Bool.not_eq_true]
    exact h
  simp [engineMove, hn]

/-- Everything that can happen when nothing waits: nothing, or one engine's turn. -/
theorem engineMove_cases (s t : State) (h : engineMove s = .next t) :
    t = s ∨ ∃ k, k < s.instances ∧ canStep (s.focus k) = true ∧
      onInstance k engineStep s = .next t := by
  unfold engineMove at h
  split at h
  · rename_i k hk
    have h1 := List.mem_range.mp (List.mem_of_find?_eq_some hk)
    exact .inr ⟨k, h1, by simpa using List.find?_some hk, h⟩
  · exact .inl (Host.Outcome.next.inj h).symm

@[simp] theorem formatRecord_length (r : Record) : (formatRecord r).length = 8 := by
  simp [formatRecord]

end Sys2Proof.Machine
end

