-- ==== Sys2Proof/Laws/Bus.lean ====
section
/-! SUPPORT. What an access, a reset and a step can do, said once (42_host_commands.md R89, R90,
70_reset_and_hazards.md R122). -/

namespace Sys2Proof.Machine

/-! ### The window -/

theorem touchesWindow_eq (p : Platform) (a n : Nat) : touchesWindow p a n =
    decide (a < regBase p + Config.windowSize ∧ regBase p < a + n) := rfl

theorem regBase_aligned (p : Platform) : regBase p % 64 = 0 := by
  simp [regBase, pageBase, Config.windowSize]

theorem regBase_le (p : Platform) : regBase p + 64 ≤ Config.addrSpace := by
  have := p.regPage.isLt
  simp only [regBase, pageBase, Config.windowSize, Config.addrSpace]; omega

theorem windowAddr_toNat (p : Platform) (off : Nat) (h : off < 64) :
    (windowAddr p off).toNat = regBase p + off := by
  have := regBase_le p
  simp only [Config.addrSpace] at this
  simp only [windowAddr, BitVec.toNat_ofNat]; omega

theorem regOffset_lt (r : Reg) : regOffset r < 64 := by cases r <;> decide

theorem regOffset_aligned (r : Reg) : regOffset r % 4 = 0 := by cases r <;> decide

theorem regAt_regOffset (r : Reg) : regAt (regOffset r) = r := by cases r <;> rfl

/-- An aligned 32-bit access to an offset of the window is a register access. -/
theorem windowAddr_isRegAccess (p : Platform) (off : Nat) (h : off < 64) (h4 : off % 4 = 0) :
    touchesWindow p (windowAddr p off).toNat 4 = true ∧
    isRegAccess (windowAddr p off) .word = true ∧
    (windowAddr p off).toNat - regBase p = off := by
  have hb := regBase_aligned p
  rw [touchesWindow_eq, isRegAccess, windowAddr_toNat p off h]
  refine ⟨decide_eq_true ⟨?_, ?_⟩, decide_eq_true ⟨rfl, ?_⟩, ?_⟩
  · simp only [Config.windowSize]; omega
  · omega
  · omega
  · omega

/-- An access that touches the window and is aligned and 32 bits wide lies inside it, at an offset that
is a multiple of 4. -/
theorem regAccess_inside (p : Platform) (a : Word) (z : Size)
    (ht : touchesWindow p a.toNat z.bytes = true) (hr : isRegAccess a z = true) :
    z = .word ∧ regBase p ≤ a.toNat ∧ a.toNat - regBase p < 64 ∧
    (a.toNat - regBase p) % 4 = 0 := by
  have hb := regBase_aligned p
  obtain ⟨rfl, h4⟩ := of_decide_eq_true hr
  rw [touchesWindow_eq] at ht
  have ht := of_decide_eq_true ht
  simp only [Size.bytes, Config.windowSize] at ht
  refine ⟨rfl, ?_, ?_, ?_⟩ <;> omega

/-! ### Accesses -/

/-- A store to the register at an offset of instance 0's window is `WR` on that register. -/
theorem busStore_window (s : State) (off : Nat) (v : DWord) (h : off < 64) (h4 : off % 4 = 0) :
    busStore (windowAddr s.platform off) .word v s = writeReg (regAt off) (v.setWidth 32) s := by
  obtain ⟨h1, h2, h3⟩ := windowAddr_isRegAccess s.platform off h h4
  simp only [busStore, Size.bytes, windowOf_own _ _ _ h1, h2, if_true, onInstance_zero, windowStore, h3]

/-- A load from the register at an offset of instance 0's window is `RD` on that register. -/
theorem busLoad_window (s : State) (off : Nat) (h : off < 64) (h4 : off % 4 = 0) :
    busLoad (windowAddr s.platform off) .word s =
      .next (s.withLastRead (some ((readReg (regAt off) s).setWidth 64))) := by
  obtain ⟨h1, h2, h3⟩ := windowAddr_isRegAccess s.platform off h h4
  simp only [busLoad, Size.bytes, windowOf_own _ _ _ h1, h2, if_true, onInstance_zero, windowLoad, h3]

/-- Everything a write to CMD can do. -/
theorem commandWrite_cases (w : Word) (s : State) :
    (∃ i, decode w = .ok i ∧ commandWrite w s = exec i s) ∨
    (∃ e, decode w = .error e ∧ commandWrite w s = illegalCommand s) := by
  unfold commandWrite
  cases h : decode w with
  | ok i => exact .inl ⟨i, rfl, rfl⟩
  | error e => exact .inr ⟨e, rfl, rfl⟩

/-- A write to CMD runs one body under command dispatch: a command's, or the error of an illegal
word. -/
theorem commandWrite_issue (w : Word) (s : State) :
    ∃ body, commandWrite w s = issue body s ∧
      ((∃ i, body = bodyOf i) ∨ body = raiseErr .badCmd) := by
  rcases commandWrite_cases w s with ⟨i, -, h⟩ | ⟨e, -, h⟩
  · exact ⟨bodyOf i, h.trans (exec_eq_issue i s), .inl ⟨i, rfl⟩⟩
  · exact ⟨_, h, .inr rfl⟩

/-- Everything a register write can do: a command, or a configuration register. -/
theorem writeReg_cases (r : Reg) (v : Word) (s : State) :
    (r = .cmd ∧ writeReg r v s = commandWrite v s) ∨
    (r ≠ .cmd ∧ writeReg r v s = .next (s.withRegs (s.regs.put r v))) := by
  cases r <;> simp [writeReg]

/-- A register write leaves the other instances and everything outside the block alone. -/
theorem writeReg_outside (r : Reg) (v : Word) (s t : State) (h : writeReg r v s = .next t) :
    SameOutside s t := by
  rcases writeReg_cases r v s with ⟨-, hw⟩ | ⟨-, hw⟩ <;> rw [hw] at h
  · obtain ⟨body, hb, hc⟩ := commandWrite_issue v s
    rw [hb] at h
    refine issue_outside body s t ?_ h
    rcases hc with ⟨i, rfl⟩ | rfl
    · exact bodyOf_outside i
    · exact fun u => ⟨rfl, rfl, rfl, rfl, rfl, rfl⟩
  · cases h; exact ⟨rfl, rfl, rfl, rfl, rfl, rfl⟩

/-- Everything a store can do when it answers a next state: `WR` on the instance whose window it lies in,
or bytes of memory. -/
theorem busStore_cases (a : Word) (z : Size) (v : DWord) (s t : State)
    (h : busStore a z v s = .next t) :
    (∃ k, windowOf s.platform a.toNat z.bytes = some k ∧ isRegAccess a z = true ∧
      onInstance k (windowStore a v) s = .next t) ∨
    (touchesAnyWindow s.platform a.toNat z.bytes = false ∧
      admitsStore s.platform a.toNat z.bytes = true ∧
      t = s.withMem (memWrite s.mem a.toNat z.bytes v.toNat)) := by
  unfold busStore at h
  split at h
  · rename_i k hk
    split at h
    · rename_i hr; exact .inl ⟨k, hk, hr, h⟩
    · cases h
  · rename_i ht
    split at h
    · rename_i ha
      exact .inr ⟨(windowOf_eq_none _ _ _).mp ht, ha, (Host.Outcome.next.inj h).symm⟩
    · cases h

/-- Everything a load can do when it answers a next state: only the value returned and the count of free
values change. -/
theorem busLoad_cases (a : Word) (z : Size) (s t : State) (h : busLoad a z s = .next t) :
    (∃ k, windowOf s.platform a.toNat z.bytes = some k ∧ isRegAccess a z = true ∧
      onInstance k (windowLoad a) s = .next t) ∨
    (touchesAnyWindow s.platform a.toNat z.bytes = false ∧
      admitsLoad s.platform a.toNat z.bytes = true ∧
      ∃ bs, seenBytes s a.toNat z.bytes = some bs ∧
        t = (s.withLastRead (some (BitVec.ofNat 64 (fromLE bs)))).withDraws (nextDraws s)) := by
  unfold busLoad at h
  split at h
  · rename_i k hk
    split at h
    · rename_i hr; exact .inl ⟨k, hk, hr, h⟩
    · cases h
  · rename_i ht
    split at h
    · rename_i ha
      split at h
      · rename_i bs hb
        exact .inr ⟨(windowOf_eq_none _ _ _).mp ht, ha, bs, hb, (Host.Outcome.next.inj h).symm⟩
      · cases h
    · cases h

/-- `RD` on instance `k` changes the value returned and nothing else. -/
theorem onInstance_windowLoad (a : Word) (k : Nat) (s t : State)
    (h : onInstance k (windowLoad a) s = .next t) : t = s ∨ ∃ v, t = s.withLastRead v := by
  rcases onInstance_cases k _ s t h with ⟨-, rfl⟩ | ⟨-, u, hu, rfl⟩
  · exact .inl rfl
  · obtain rfl := (Host.Outcome.next.inj hu).symm
    exact .inr ⟨_, by rw [State.focus_withLastRead, State.focus_focus]⟩

/-- What one instance adds to what an agent's load meets (20_memory.md R39). -/
theorem flightByte_cases (mask : BitVec 8) (s : State) (x : Nat) (old : Option Byte) :
    flightByte mask s x old = old ∨
    ∃ a r, engineTurn s = .write a r ∧ a ≤ x ∧ x < a + Config.recSize ∧
      flightByte mask s x old = (formatRecord r)[x - a]? := by
  unfold flightByte
  split
  · rename_i a r hw
    split
    · rename_i hc; exact .inr ⟨a, r, hw, hc.1, hc.2.1, rfl⟩
    · exact .inl rfl
  · exact .inl rfl

/-- What an agent's load meets at one address: memory, or a record some engine is writing (20_memory.md
R39). -/
theorem seenByte_cases (s : State) (x : Nat) :
    seenByte s x = memGet s.mem x ∨
    ∃ k a r, k < s.instances ∧ engineTurn (s.focus k) = .write a r ∧ a ≤ x ∧ x < a + Config.recSize ∧
      seenByte s x = (formatRecord r)[x - a]? := by
  have key : ∀ n, seenByteUpTo s x n = memGet s.mem x ∨
      ∃ k a r, k < n ∧ engineTurn (s.focus k) = .write a r ∧ a ≤ x ∧ x < a + Config.recSize ∧
        seenByteUpTo s x n = (formatRecord r)[x - a]? := by
    intro n
    induction n with
    | zero => exact .inl rfl
    | succ n ih =>
      rcases flightByte_cases (Config.freeMask (s.draws + n)) (s.focus n) x (seenByteUpTo s x n) with
        h | ⟨a, r, hw, h1, h2, h⟩
      · rcases ih with ih | ⟨k, a, r, hk, hw, h1, h2, ih⟩
        · exact .inl (h.trans ih)
        · exact .inr ⟨k, a, r, by omega, hw, h1, h2, h.trans ih⟩
      · exact .inr ⟨n, a, r, by omega, hw, h1, h2, h⟩
  exact key s.instances

/-- With no record in flight over an address, a load meets what memory holds. -/
theorem seenByte_quiet (s : State) (x : Nat)
    (h : ∀ k a r, k < s.instances → engineTurn (s.focus k) = .write a r →
      x < a ∨ a + Config.recSize ≤ x) : seenByte s x = memGet s.mem x := by
  rcases seenByte_cases s x with hs | ⟨k, a, r, hk, hw, h1, h2, -⟩
  · exact hs
  · have := h k a r hk hw; omega

/-! ### Reset -/

@[simp] theorem resetBlock_regs (s : State) : (resetBlock s).regs = ⟨0, 0, 0, 0, 0⟩ := rfl
@[simp] theorem resetBlock_chain (s : State) : (resetBlock s).chain = ChainState.empty := rfl
@[simp] theorem resetBlock_engine (s : State) : (resetBlock s).engine = ⟨.idle, 0, 0, 0⟩ := rfl
@[simp] theorem resetBlock_status (s : State) : (resetBlock s).status = Status.clear := rfl
@[simp] theorem resetBlock_others (s : State) : (resetBlock s).others = s.others := rfl
@[simp] theorem resetBlock_mem (s : State) : (resetBlock s).mem = memAfterReset s := rfl
@[simp] theorem resetBlock_platform (s : State) : (resetBlock s).platform = s.platform := rfl
@[simp] theorem resetBlock_inputs (s : State) : (resetBlock s).inputs = s.inputs := rfl
@[simp] theorem resetBlock_lastRead (s : State) : (resetBlock s).lastRead = s.lastRead := rfl
@[simp] theorem resetBlock_draws (s : State) : (resetBlock s).draws = nextDraws s := rfl

/-- Everything a reset can leave in memory (70_reset_and_hazards.md R122). -/
theorem memAfterReset_cases (s : State) :
    memAfterReset s = s.mem ∨
    ∃ a r, engineTurn s = .write a r ∧
      memAfterReset s = memPutMasked (Config.freeMask s.draws) s.mem a 0 (formatRecord r) := by
  unfold memAfterReset
  split
  · rename_i a r hw; exact .inr ⟨a, r, hw, rfl⟩
  · exact .inl rfl

/-! ### The step -/

theorem step_empty (s : State) (h : s.inputs = []) : step s = engineMove s := by simp [step, h]

theorem step_input (s : State) (i : Input) (rest : List Input) (h : s.inputs = i :: rest) :
    step s = runInput i (s.withInputs rest) := by simp [step, h]

/-- Instance 0's engine moves at its turn, and when nothing waits and it has a step. -/
theorem step_engine (s : State)
    (h : (s.inputs = [] ∧ canStep s = true) ∨ ∃ rest, s.inputs = .engine 0 :: rest) :
    step s = engineStep (s.withInputs s.inputs.tail) := by
  rcases h with ⟨h, hc⟩ | ⟨rest, h⟩
  · rw [step_empty s h, engineMove_own s hc, h]
    congr 1
    cases s; cases h; rfl
  · simp [step, h, runInput]

/-- A host write of a register as the next input. -/
theorem step_wrInput (s : State) (r : Reg) (v : Word) (rest : List Input)
    (h : s.inputs = wrInput s.platform r v :: rest) :
    step s = writeReg r v (s.withInputs rest) := by
  have hw := busStore_window (s.withInputs rest) (regOffset r) (v.setWidth 64)
    (regOffset_lt r) (regOffset_aligned r)
  rw [regAt_regOffset, BitVec.setWidth_setWidth_of_le v (by omega), BitVec.setWidth_eq] at hw
  rw [step_input s _ _ h]
  exact hw

/-- A host read of a register as the next input. -/
theorem step_rdInput (s : State) (r : Reg) (rest : List Input)
    (h : s.inputs = rdInput s.platform r :: rest) :
    step s = .next ((s.withInputs rest).withLastRead
      (some ((readReg r (s.withInputs rest)).setWidth 64))) := by
  have hw := busLoad_window (s.withInputs rest) (regOffset r) (regOffset_lt r) (regOffset_aligned r)
  rw [regAt_regOffset] at hw
  rw [step_input s _ _ h]
  exact hw

/-- What a step does to one instance: nothing, its engine's turn, its reset, or `WR` on it. -/
inductive Touch where
  | engine
  | reset
  | store (a : Word) (v : DWord)

/-- The meaning of each, for instance 0. -/
def Touch.run : Touch → State → Host.Outcome State Fault Refusal
  | .engine, s => engineStep s
  | .reset, s => .next (resetBlock s)
  | .store a v, s => windowStore a v s

/-- Which inputs bring it about on instance `k`. -/
def Touch.arrives (c : Touch) (k : Nat) (s : State) : Prop :=
  match c with
  | .engine => (s.inputs = [] ∧ canStep (s.focus k) = true) ∨ ∃ rest, s.inputs = .engine k :: rest
  | .reset => ∃ rest, s.inputs = .reset k :: rest
  | .store a v => (∃ rest, s.inputs = .store a .word v :: rest) ∧
      windowOf s.platform a.toNat 4 = some k ∧ isRegAccess a .word = true

/-- Each leaves the other instances, the platform, the inputs and the last value read alone. -/
theorem Touch.run_frame (c : Touch) (s t : State) (h : c.run s = .next t) :
    t.others = s.others ∧ t.platform = s.platform ∧ t.inputs = s.inputs ∧
    t.lastRead = s.lastRead := by
  cases c with
  | engine => have := engineStep_frame s t h; exact ⟨this.1, this.2.1, this.2.2.1, this.2.2.2.1⟩
  | reset => obtain rfl := (Host.Outcome.next.inj h).symm; exact ⟨rfl, rfl, rfl, rfl⟩
  | store a v =>
    have := writeReg_outside _ _ s t h; exact ⟨this.1, this.2.1, this.2.2.2.1, this.2.2.2.2.1⟩

/-- Everything a step can do: one instance's turn, reset or register write; a store to memory; or a change
of nothing but the inputs, the value read and the count of free values. -/
theorem step_cases (s t : State) (h : step s = .next t) :
    (∃ k c u, k < s.instances ∧ Touch.arrives c k s ∧
      c.run ((s.withInputs s.inputs.tail).focus k) = .next u ∧ t = u.focus k) ∨
    (∃ a z v rest, s.inputs = .store a z v :: rest ∧
      touchesAnyWindow s.platform a.toNat z.bytes = false ∧
      admitsStore s.platform a.toNat z.bytes = true ∧
      t = (s.withInputs rest).withMem (memWrite s.mem a.toNat z.bytes v.toNat)) ∨
    (∃ v n, t = ((s.withInputs s.inputs.tail).withLastRead v).withDraws n) := by
  have same : s.withInputs s.inputs.tail =
      ((s.withInputs s.inputs.tail).withLastRead s.lastRead).withDraws s.draws := by cases s; rfl
  cases hi : s.inputs with
  | nil =>
    rw [step_empty s hi] at h
    have he : s = s.withInputs [] := by cases s; cases hi; rfl
    rcases engineMove_cases s t h with rfl | ⟨k, hk, hc, hm⟩
    · rw [hi] at same
      exact .inr (.inr ⟨_, _, he.trans same⟩)
    · rcases onInstance_cases k _ s t hm with ⟨hk', -⟩ | ⟨-, u, hu, rfl⟩
      · omega
      · exact .inl ⟨k, .engine, u, hk, .inl ⟨hi, hc⟩, by
          simp only [List.tail_nil]; rw [← he]; exact hu, rfl⟩
  | cons i rest =>
    rw [step_input s i rest hi] at h
    rw [hi] at same
    simp only [List.tail_cons] at same ⊢
    cases i with
    | engine k =>
      rcases onInstance_cases k _ _ t h with ⟨-, rfl⟩ | ⟨hk, u, hu, rfl⟩
      · exact .inr (.inr ⟨_, _, same⟩)
      · exact .inl ⟨k, .engine, u, hk, .inr ⟨rest, hi⟩, hu, rfl⟩
    | reset k =>
      rcases onInstance_cases k (fun u => .next (resetBlock u)) (s.withInputs rest) t h with
        ⟨-, rfl⟩ | ⟨hk, u, hu, rfl⟩
      · exact .inr (.inr ⟨_, _, same⟩)
      · exact .inl ⟨k, .reset, u, hk, ⟨rest, hi⟩, hu, rfl⟩
    | store a z v =>
      rcases busStore_cases a z v _ t h with ⟨k, hw, hr, ho⟩ | ⟨hw, ha, rfl⟩
      · obtain ⟨rfl, -⟩ := of_decide_eq_true hr
        rcases onInstance_cases k _ _ t ho with ⟨-, rfl⟩ | ⟨hk, u, hu, rfl⟩
        · exact .inr (.inr ⟨_, _, same⟩)
        · exact .inl ⟨k, .store a v, u, hk, ⟨⟨rest, hi⟩, hw, hr⟩, hu, rfl⟩
      · exact .inr (.inl ⟨a, z, v, rest, rfl, hw, ha, rfl⟩)
    | load a z =>
      rcases busLoad_cases a z _ t h with ⟨k, -, -, ho⟩ | ⟨-, -, bs, -, rfl⟩
      · rcases onInstance_windowLoad a k _ t ho with rfl | ⟨v, rfl⟩
        · exact .inr (.inr ⟨_, _, same⟩)
        · exact .inr (.inr ⟨v, s.draws, by cases s; rfl⟩)
      · exact .inr (.inr ⟨_, _, rfl⟩)

end Sys2Proof.Machine
end

