-- ==== Sys2Proof/Laws/PerInstr.lean ====
section
/-! SUPPORT. Statements about every command as written, one lemma per constructor. -/

namespace Sys2Proof.Laws

/-- The family RoundTrip: a well-formed command's word is legal (30_encoding.md R52) and decodes to the
command (R51). -/
def RoundTrip.Statement (i : Instr) : Prop :=
  i.wellFormed = true → legalWord (encode i) = true ∧ decode (encode i) = .ok i

theorem RoundTrip.nop : RoundTrip.Statement .nop := fun _ => ⟨by decide, rfl⟩
theorem RoundTrip.build : RoundTrip.Statement .build := fun _ => ⟨by decide, rfl⟩
theorem RoundTrip.serialize : RoundTrip.Statement .serialize := fun _ => ⟨by decide, rfl⟩
theorem RoundTrip.buildSerialize : RoundTrip.Statement .buildSerialize := fun _ => ⟨by decide, rfl⟩
theorem RoundTrip.discard : RoundTrip.Statement .discard := fun _ => ⟨by decide, rfl⟩

end Sys2Proof.Laws
end

