-- ==== Sys2Proof/Laws/Safety.lean ====
section
/-! SUPPORT. The invariant's parts where they hold for a plain reason. -/

namespace Sys2Proof.Machine

theorem chainOk_empty : ChainOk ChainState.empty :=
  ⟨fun h => Bool.noConfusion h, fun _ => rfl⟩

theorem engineOk_of_idle (b : Block) (h : b.engine.phase = .idle) : EngineOk b := by
  intro h'; rw [h] at h'; cases h'

theorem doneOk_of_not_done (b : Block) (h : b.status.done = false) : DoneOk b := by
  intro h'; rw [h] at h'; cases h'

theorem blockOk_reset : BlockOk Block.atReset :=
  ⟨chainOk_empty, engineOk_of_idle _ rfl, doneOk_of_not_done _ rfl⟩

theorem tableInMemory_of_idle (s : State) (h : s.engine.phase = .idle)
    (hd : s.status.done = false) : TableInMemory s := by
  refine ⟨fun h' => ?_, fun h' => ?_⟩
  · rw [h] at h'; cases h'
  · rw [hd] at h'; cases h'

/-- Two lists of bytes that follow each other in memory. -/
theorem HoldsBytes.append (m : Memory) (a : Nat) (xs ys : List Byte) (hx : HoldsBytes m a xs)
    (hy : HoldsBytes m (a + xs.length) ys) : HoldsBytes m a (xs ++ ys) := by
  intro j hj
  by_cases h : j < xs.length
  · rw [List.getElem?_append_left h]; exact hx j h
  · rw [List.length_append] at hj
    rw [List.getElem?_append_right (by omega), ← hy (j - xs.length) (by omega)]
    congr 1; omega

/-- Memory that agrees on the bytes of a list still holds it. -/
theorem HoldsBytes.frame (m m' : Memory) (a : Nat) (xs : List Byte) (h : HoldsBytes m a xs)
    (hf : ∀ x, a ≤ x → x < a + xs.length → memGet m' x = memGet m x) : HoldsBytes m' a xs :=
  fun j hj => by rw [hf _ (by omega) (by omega)]; exact h j hj

end Sys2Proof.Machine
end

