-- ==== Sys2Proof/Laws/Run.lean ====
section
/-! SUPPORT. Several steps in a row. -/

namespace Sys2Proof.Machine

theorem core_run_zero (s : State) : Host.Core.run Sys2Proof.core 0 s = .next s := rfl

/-- A run whose first step answers `t` goes on as the run of `t`, on any machine. -/
theorem run_succ (M : Host.Core) (k : Nat) (s t : M.State) (h : M.step s = .next t) :
    M.run (k + 1) s = M.run k t := by
  simp only [Host.Core.run, h]

theorem core_run_succ (k : Nat) (s t : State) (h : step s = .next t) :
    Host.Core.run Sys2Proof.core (k + 1) s = Host.Core.run Sys2Proof.core k t :=
  run_succ Sys2Proof.core k s t h

end Sys2Proof.Machine
end

