-- ==== Sys2Proof/Tests/Slice0.lean ====
section
/-! SUPPORT. Our own tests. Expected values are the spec's: 95_test_vectors.md (the row is named), or the
rule named. Then, for each statement with hypotheses, one concrete case that meets them. -/

namespace Sys2Proof.Tests

open Sys2Proof.Machine

/-! ### Helpers -/

/-- A platform with REG_BASE = 0x0800_0000 and read-write memory everywhere else. -/
def plat : Platform := ⟨0x200000, [], []⟩

/-- The same, with no memory at 0x9000_0000 .. 0x9000_FFFF. -/
def platHole : Platform := ⟨0x200000, [], [⟨0x90000000, 0x10000, .noMemory⟩]⟩

/-- Two instances: REG_BASE = 0x0800_0000 and 0x0800_0040. -/
def platTwo : Platform := ⟨0x200000, [0x200001], []⟩

/-- Reset, then the four registers of a request written. -/
def cfg (a l t c : Word) : State := (State.resetOn plat).withRegs ⟨a, l, t, c, 0⟩

/-- The source's example (section 1.2): the chain built, the table at 0x9000_0000. -/
def built : State :=
  (cfg 0x88000000 70000 0x90000000 16).withChain ⟨true, 0x88000000, 70000, 2, 4468⟩

/-- `built`, with the engine started. -/
def running : State := built.withEngine ⟨.ser, 0, 0x90000000, 0⟩

/-- The first record of the example in memory. -/
def mem1 : Memory :=
  [(0x90000000, 0x21), (0x90000001, 0x00), (0x90000002, 0xFC), (0x90000003, 0xFF),
    (0x90000004, 0x00), (0x90000005, 0x00), (0x90000006, 0x00), (0x90000007, 0x88)]

/-- The example's whole table in memory. -/
def mem2 : Memory := mem1 ++
  [(0x90000008, 0x23), (0x90000009, 0x00), (0x9000000A, 0x74), (0x9000000B, 0x11),
    (0x9000000C, 0xFC), (0x9000000D, 0xFF), (0x9000000E, 0x00), (0x9000000F, 0x88)]

/-- One record written. -/
def running1 : State := (built.withEngine ⟨.ser, 1, 0x90000000, 8⟩).withMem mem1

/-- The serialization completed. -/
def finished : State :=
  ((built.withEngine ⟨.idle, 2, 0x90000000, 16⟩).withMem mem2).withStatus ⟨true, false, .none⟩

/-- Two instances: instance 0 `built`, instance 1 about to write its one record at 0xA000_0000. -/
def two : State :=
  (built.withPlatform platTwo).withOthers
    [⟨⟨0, 8, 0xA0000000, 8, 0⟩, ⟨true, 0, 8, 1, 8⟩, ⟨.ser, 0, 0xA0000000, 0⟩, Status.clear⟩]

/-- What `f` says of the next state, if there is one. -/
def after {α : Type} (o : Host.Outcome State Fault Refusal) (f : State → α) : Option α :=
  match o with
  | .next t => some (f t)
  | .fault _ => none
  | .refused _ => none

/-! ### Well-formedness and decoding -/

theorem test_wf_refuses_rsvd : rsvdIsZero 0x00000010 = false := by decide
theorem test_wf_refuses_reserved_op : opIsCommand 0x00000005 = false := by decide
theorem test_wf_legal_word_needs_both :
    legalWord 0x80000001 = false ∧ legalWord 0x0000000F = false ∧ legalWord 0x00000004 = true := by
  decide

/-- 30_encoding.md R50, R51: RSVD = 0, OP = 0x0 .. 0x4, written out bit by bit. -/
theorem test_decode_nop : decode 0b00000000000000000000000000000000 = .ok .nop := by rfl
theorem test_decode_build : decode 0b00000000000000000000000000000001 = .ok .build := by rfl
theorem test_decode_serialize : decode 0b00000000000000000000000000000010 = .ok .serialize := by rfl
theorem test_decode_buildSerialize :
    decode 0b00000000000000000000000000000011 = .ok .buildSerialize := by rfl
theorem test_decode_discard : decode 0b00000000000000000000000000000100 = .ok .discard := by rfl
/-- K13, K12, and a word that only differs from BUILD in its top bit. -/
theorem test_decode_reserved_op : decode 0x00000005 = .error (.reservedOp 5) := by rfl
theorem test_decode_rsvd : decode 0x00000010 = .error .rsvdNotZero := by rfl
theorem test_decode_top_bit : decode 0x80000001 = .error .rsvdNotZero := by rfl
theorem test_decode_table_word : decodeTableWord 32 3 = some .buildSerialize := by decide

/-! ### Records and chains (95_test_vectors.md sections 2.1 to 2.3) -/

theorem test_build_example : buildRef 0x88000000 70000 =
    some [⟨0x21, 0x00, 65532, 0x88000000⟩, ⟨0x23, 0x00, 4468, 0x8800FFFC⟩] := by decide
/-- B5: an exact multiple ends with a full record. -/
theorem test_build_exact_multiple : buildRef 0x10000000 131064 =
    some [⟨0x21, 0x00, 65532, 0x10000000⟩, ⟨0x23, 0x00, 65532, 0x1000FFFC⟩] := by decide
/-- B9: the last byte is the last address. -/
theorem test_build_top : buildRef 0xFFFF0000 65536 =
    some [⟨0x21, 0x00, 65532, 0xFFFF0000⟩, ⟨0x23, 0x00, 4, 0xFFFFFFFC⟩] := by decide
theorem test_build_past_top : buildRef 0xFFFFFFFF 2 = none := by decide
/-- F5. -/
theorem test_format : formatRecord ⟨0x23, 0x00, 3, 0x12345677⟩ =
    [0x23, 0x00, 0x03, 0x00, 0x77, 0x56, 0x34, 0x12] := by decide
/-- F2. -/
theorem test_words : word0 ⟨0x23, 0x00, 4468, 0x8800FFFC⟩ = 0x11740023 ∧
    word1 ⟨0x23, 0x00, 4468, 0x8800FFFC⟩ = 0x8800FFFC ∧
    rec64 ⟨0x23, 0x00, 4468, 0x8800FFFC⟩ = 0x8800FFFC11740023 := by decide
/-- S2. -/
theorem test_serialize_chain : (buildRef 0x10000000 65533).map serialize =
    some [0x21, 0x00, 0xFC, 0xFF, 0x00, 0x00, 0x00, 0x10,
      0x23, 0x00, 0x01, 0x00, 0xFC, 0xFF, 0x00, 0x10] := by decide
/-- S8, S9. -/
theorem test_parse : parse [0x10, 0, 0, 0, 0, 0, 0, 0] = some [⟨0x10, 0x00, 0, 0⟩] ∧
    parse [0, 0, 0, 0, 0, 0, 0] = none := by decide
/-- 30_encoding.md R56: ACT 0b01 has no meaning, 0b11 is LINK. -/
theorem test_action : Record.action ⟨0x10, 0x00, 0, 0⟩ = none ∧
    Record.action ⟨0x31, 0x00, 0, 0⟩ = some .link ∧
    Record.action ⟨0x21, 0x00, 0, 0⟩ = some .transfer := by decide

/-! ### The commands (95_test_vectors.md section 2.4) -/

/-- 42_host_commands.md R92's example: 0x52 becomes 0x02. -/
theorem test_nop : after (exec .nop (built.withStatus ⟨false, false, .tblSmall⟩)) statusWord =
    some 0x00000002 := by decide
/-- K16. -/
theorem test_nop_busy : after (exec .nop running) statusWord = some 0x0000000B := by decide
/-- R93's example. -/
theorem test_build : after (exec .build (cfg 0x88000000 70000 0 0))
    (fun t => (statusWord t, t.chain.count, t.chain.last)) = some (0x00000002, 2, 4468) := by decide
/-- K17. -/
theorem test_build_longest : after (exec .build (cfg 0 0xFFFFFFFF 0 0))
    (fun t => (statusWord t, t.chain.count, t.chain.last)) = some (0x00000002, 65541, 15) := by decide
/-- K9's table check after a separate BUILD. -/
theorem test_serialize_overflow :
    after (exec .serialize ((cfg 0 65533 0xFFFFFFF8 16).withChain ⟨true, 0, 65533, 2, 1⟩))
      statusWord = some 0x00000062 := by decide
/-- R94's example. -/
theorem test_serialize : after (exec .serialize built) (fun t => (statusWord t, t.engine.serBase)) =
    some (0x00000003, 0x90000000) := by decide
/-- K6. -/
theorem test_buildSerialize_misaligned :
    after (exec .buildSerialize (cfg 0 8 0x20000004 8)) statusWord = some 0x00000042 := by decide
/-- K11. -/
theorem test_buildSerialize_priority :
    after (exec .buildSerialize (cfg 0 0 3 0)) statusWord = some 0x00000010 := by decide
/-- K15. -/
theorem test_discard : after (exec .discard finished)
    (fun t => (statusWord t, readReg .recCount t, readReg .lastLen t)) = some (0, 0, 0) := by decide
/-- 10_state.md R17: a command leaves the configuration registers alone. -/
theorem test_discard_keeps_config :
    after (exec .discard built) (fun t => t.regs.srcLen) = some 70000 := by decide

/-! ### Accesses and the engine -/

/-- K12, on the bus. -/
theorem test_illegal_word :
    after (step (built.withInputs [wrInput plat .cmd 0x10])) statusWord = some 0x00000072 := by decide
/-- The table's word for BUILD as the first command after reset: SRC_LEN is 0 (K1). -/
theorem test_fetch_build :
    after (step (State.reset.withFetchWord 32 1)) statusWord = some 0x00000010 := by decide
/-- G2. -/
theorem test_readback : after (step (((State.resetOn plat).withChain
      ⟨true, 0x10000000, 131065, 3, 1⟩).withRegs ⟨0, 0, 0, 0, 2⟩ |>.withInputs [rdInput plat .recWord0]))
    State.lastRead = some (some 0x00010023) := by decide
/-- P1, the first engine step. -/
theorem test_engine_first : after (step running) (fun t => (t.mem, statusWord t, t.engine.bytesOut)) =
    some (mem1, 0x00000003, 8) := by decide
/-- P1, the second and last. -/
theorem test_engine_last : step running1 = .next finished := by rfl
/-- 30_encoding.md R61: what the host's RUN line puts on the bus, its POLL meeting BUSY once. -/
theorem test_run_line : (HostLine.run 0x88000000 512 0x90000000 8 1).inputs plat 0 =
    [.store 0x08000000 .word 0x88000000, .store 0x08000004 .word 512,
      .store 0x08000008 .word 0x90000000, .store 0x0800000C .word 8,
      .store 0x08000010 .word 3, .load 0x08000014 .word, .engine 0, .load 0x08000014 .word,
      .load 0x08000014 .word] := by decide

/-- 60_exceptions.md R119, 42_host_commands.md R91: DISCARD written to instance 0's CMD runs there,
although instance 1 is BUSY; written to instance 1's, at 0x0800_0050, it is dropped there. -/
theorem test_instances_commands :
    after (step (two.withInputs [.store 0x08000010 .word 4]))
      (fun t => (statusWord t, t.others.map (fun b => b.status.ovr))) = some (0x00000000, [false]) ∧
    after (step (two.withInputs [.store 0x08000050 .word 4]))
      (fun t => (statusWord t, t.others.map (fun b => b.status.ovr))) = some (0x00000002, [true]) := by
  decide
/-- 42_host_commands.md R97: with nothing waiting instance 1's engine writes its record; F1's bytes with
length 8 and address 0. -/
theorem test_instance_one_engine :
    after (step two) (fun t => (t.mem.map Prod.snd, t.others.map (fun b => b.status.done), statusWord t)) =
      some ([0x23, 0x00, 0x08, 0x00, 0x00, 0x00, 0x00, 0x00], [true], 0x00000002) := by decide

/-! ### Every hypothesis can be met -/

theorem noOthers : ∀ b ∈ ([] : List Block), BlockOk b := fun _ h => nomatch h

theorem disjoint_alone (s : State) (h : s.others = []) : TablesDisjoint s := by
  intro b hb; rw [h] at hb; cases hb

theorem blockOk_built : BlockOk built.block :=
  ⟨⟨fun _ => by decide, fun h => by revert h; decide⟩, engineOk_of_idle _ rfl, doneOk_of_not_done _ rfl⟩

theorem inv_built : Inv built := ⟨blockOk_built, noOthers, rfl, by decide⟩

theorem inv_running : Inv running :=
  ⟨⟨blockOk_built.1, fun _ => by decide, doneOk_of_not_done _ rfl⟩, noOthers, rfl,
    by decide⟩

theorem inv_running1 : Inv running1 :=
  ⟨⟨blockOk_built.1, fun _ => by decide, doneOk_of_not_done _ rfl⟩, noOthers, rfl,
    by decide⟩

theorem inv_finished : Inv finished :=
  ⟨⟨blockOk_built.1, engineOk_of_idle _ rfl, fun _ => by decide⟩, noOthers, rfl,
    by decide⟩

/-- Two instances, both at work. -/
theorem inv_two : Inv two := by
  refine ⟨blockOk_built, fun b h => ?_, rfl, by decide⟩
  obtain rfl := List.mem_singleton.mp h
  exact ⟨⟨fun _ => by decide, fun h => by revert h; decide⟩, fun _ => by decide,
    doneOk_of_not_done _ rfl⟩

theorem holds_finished : HoldsBytes mem2 0x90000000 (table finished) := by
  unfold HoldsBytes; decide

theorem table_running : TableInMemory running := by
  unfold TableInMemory HoldsBytes; decide

theorem table_running1 : TableInMemory running1 := by
  unfold TableInMemory HoldsBytes; decide

theorem table_finished : TableInMemory finished := by
  unfold TableInMemory HoldsBytes; decide

/-- DecodeSelectsByTheWholeWord. -/
theorem witness_DecodeSelectsByTheWholeWord :
    Instr.build.wellFormed = true ∧ decode 0x00000001 = .ok .build ∧ legalWord 0x00000001 = true ∧
    legalWord 0x00000005 = false ∧ legalWord 0x00000010 = false := ⟨by decide, rfl, by decide⟩

/-- FormatRecordAsNumbers: a record selected by REC_INDEX, a record of a built chain. -/
theorem witness_FormatRecordAsNumbers :
    recordAt built built.regs.recIndex.toNat = some ⟨0x21, 0x00, 65532, 0x88000000⟩ ∧
    ∃ ch, buildRef 0x88000000 70000 = some ch ∧ ⟨0x21, 0x00, 65532, 0x88000000⟩ ∈ ch :=
  ⟨by decide, _, test_build_example, by decide⟩

/-- ParseOfSerialize, its second and third clauses. -/
theorem witness_ParseOfSerialize :
    buildRef 0x10000000 1 = some [⟨0x23, 0x00, 1, 0x10000000⟩] ∧
    serialize [⟨0x23, 0x00, 1, 0x10000000⟩] = serialize [⟨0x23, 0x00, 1, 0x10000000⟩] := by decide

/-- SerializeOfParse. -/
theorem witness_SerializeOfParse :
    parse [0x10, 0, 0, 0, 0, 0, 0, 0] = some [⟨0x10, 0x00, 0, 0⟩] := by decide

/-- BuildClosedForm: the shortest and the longest request, and one that ends at the top. -/
theorem witness_BuildClosedForm :
    (1 ≤ (1 : Word).toNat ∧ (0x10000000 : Word).toNat + (1 : Word).toNat ≤ Config.addrSpace) ∧
    (1 ≤ (0xFFFFFFFF : Word).toNat ∧ (0 : Word).toNat + (0xFFFFFFFF : Word).toNat ≤ Config.addrSpace) ∧
    (1 ≤ (1 : Word).toNat ∧ (0xFFFFFFFF : Word).toNat + (1 : Word).toNat = Config.addrSpace) ∧
    (131064 : Word).toNat % Config.maxSeg = 0 ∧ (131065 : Word).toNat % Config.maxSeg ≠ 0 := by decide

/-- BuildStaysInAddressSpace, EmittedAttributes, NonTerminalRecords and AddressesContiguous: a record of
a built chain that is not the last. -/
theorem witness_recordOfABuiltChain :
    1 ≤ (70000 : Word).toNat ∧ ∃ ch r, buildRef 0x88000000 70000 = some ch ∧ ch[0]? = some r ∧
      0 + 1 < ch.length := ⟨by decide, _, _, test_build_example, rfl, by decide⟩

/-- OneEndAndItIsLast, TerminalRecord, LengthsSumToTotal, UnusedBitsAreZero. -/
theorem witness_aBuiltChain :
    1 ≤ (1 : Word).toNat ∧ ∃ ch r, buildRef 0xFFFFFFFF 1 = some ch ∧ r ∈ ch :=
  ⟨by decide, [⟨0x23, 0x00, 1, 0xFFFFFFFF⟩], _, by decide, List.mem_cons_self⟩

/-- ChainLength, at its two boundaries. -/
theorem witness_ChainLength :
    (1 ≤ (65532 : Word).toNat ∧ (65532 : Word).toNat ≤ Config.maxSeg ∧ (65532 : Word).toNat = 65532 ∧
      (buildRef 0x10000000 65532).isSome = true) ∧
    ((65533 : Word).toNat = 65533 ∧ (buildRef 0x10000000 65533).isSome = true) := by decide

/-- NopClearsStatusOnly and DiscardEmptiesTheChain: idle, BUSY, the example's status, no chain. -/
theorem witness_NopClearsStatusOnly :
    built.engine.phase = .idle ∧ running.engine.phase = .ser ∧
    exec .nop built = .next built ∧
    statusWord (built.withStatus ⟨false, false, .tblSmall⟩) = 0x00000052 :=
  ⟨rfl, rfl, rfl, by decide⟩

theorem witness_DiscardEmptiesTheChain :
    built.engine.phase = .idle ∧ running.engine.phase = .ser ∧
    (State.resetOn plat).engine.phase = .idle ∧
    (State.resetOn plat).chain = ⟨false, 0, 0, 0, 0⟩ := by decide

/-- BuildLatchesTheChain, also where the range ends at the top of the address space. -/
theorem witness_BuildLatchesTheChain :
    let s := cfg 0xFFFFFFFF 1 0 0
    s.engine.phase = .idle ∧ 1 ≤ s.regs.srcLen.toNat ∧
    s.regs.srcAddr.toNat + s.regs.srcLen.toNat ≤ Config.addrSpace := by decide

theorem witness_ZeroLengthRejected :
    (cfg 0 0 0 0).engine.phase = .idle ∧ (cfg 0 0 0 0).regs.srcLen = 0 := by decide

/-- SourceOverflowRejected: one byte past the top (K3), and exactly at the top (K4). -/
theorem witness_SourceOverflowRejected :
    (let s := cfg 0xFFFF0000 0x00010001 0 0
     s.engine.phase = .idle ∧ 1 ≤ s.regs.srcLen.toNat ∧
     4294967296 < s.regs.srcAddr.toNat + s.regs.srcLen.toNat) ∧
    (let s := cfg 0xFFFFFFFF 1 0 0
     s.engine.phase = .idle ∧ 1 ≤ s.regs.srcLen.toNat ∧
     s.regs.srcAddr.toNat + s.regs.srcLen.toNat = 4294967296) := by decide

/-- NoChainRejected: no chain; a DISCARD; a failed BUILD. -/
theorem witness_NoChainRejected :
    ((cfg 0 0 0 0).engine.phase = .idle ∧ (cfg 0 0 0 0).chain.valid = false) ∧
    (∃ t, exec .discard built = .next t) ∧
    (∃ t, exec .build (cfg 0 0 0 0) = .next t ∧ t.status.err ≠ .none) :=
  ⟨by decide, ⟨_, rfl⟩, _, rfl, by decide⟩

theorem witness_MisalignedTableRejected :
    let s := built.withRegs ⟨0x88000000, 70000, 0x90000001, 16, 0⟩
    s.engine.phase = .idle ∧ s.chain.valid = true ∧ s.regs.tblBase.toNat % 8 ≠ 0 := by decide

/-- SmallTableRejected: one byte short. -/
theorem witness_SmallTableRejected :
    let s := built.withRegs ⟨0x88000000, 70000, 0x90000000, 15, 0⟩
    s.engine.phase = .idle ∧ s.chain.valid = true ∧ s.regs.tblBase.toNat % 8 = 0 ∧
    s.regs.tblCap.toNat < 8 * s.chain.count.toNat := by decide

/-- TableOverflowRejected: 8 bytes past the top. -/
theorem witness_TableOverflowRejected :
    let s := built.withRegs ⟨0x88000000, 70000, 0xFFFFFFF8, 16, 0⟩
    s.engine.phase = .idle ∧ s.chain.valid = true ∧ s.regs.tblBase.toNat % 8 = 0 ∧
    8 * s.chain.count.toNat ≤ s.regs.tblCap.toNat ∧
    4294967296 < s.regs.tblBase.toNat + 8 * s.chain.count.toNat := by decide

/-- SerializeStartsTheEngine, with a buffer exactly large enough that ends at the top. -/
theorem witness_SerializeStartsTheEngine :
    let s := built.withRegs ⟨0x88000000, 70000, 0xFFFFFFF0, 16, 0⟩
    s.engine.phase = .idle ∧ s.chain.valid = true ∧ s.regs.tblBase.toNat % 8 = 0 ∧
    8 * s.chain.count.toNat ≤ s.regs.tblCap.toNat ∧
    s.regs.tblBase.toNat + 8 * s.chain.count.toNat ≤ 4294967296 := by decide

theorem witness_BuildSerializeStartsTheEngine :
    let s := cfg 0x88000000 70000 0xFFFFFFF0 16
    s.engine.phase = .idle ∧ 1 ≤ s.regs.srcLen.toNat ∧
    s.regs.srcAddr.toNat + s.regs.srcLen.toNat ≤ 4294967296 ∧
    s.regs.tblBase.toNat % 8 = 0 ∧
    8 * ceilDiv s.regs.srcLen.toNat 65532 ≤ s.regs.tblCap.toNat ∧
    s.regs.tblBase.toNat + 8 * ceilDiv s.regs.srcLen.toNat 65532 ≤ 4294967296 := by decide

/-- BuildSerializeIsTheComposition: a BUILD that succeeds and one that fails. -/
theorem witness_BuildSerializeIsTheComposition :
    (cfg 0 8 0 8).engine.phase = .idle ∧
    after (exec .build (cfg 0 8 0 8)) (fun t => t.status.err) = some .none ∧
    after (exec .build (cfg 0 0 0 8)) (fun t => t.status.err) = some .zeroLen ∧
    after (exec .buildSerialize (cfg 0 0 0 8)) (fun t => t.status.err) = some .zeroLen := by decide

/-- IllegalWordFails: RSVD not 0, the least and the greatest reserved OP. -/
theorem witness_IllegalWordFails :
    (built.withInputs [wrInput plat .cmd 0x5]).inputs = wrInput built.platform .cmd 0x5 :: [] ∧
    built.engine.phase = .idle ∧ 5 ≤ ((0x5 : Word).extractLsb' 0 4).toNat ∧
    5 ≤ ((0xF : Word).extractLsb' 0 4).toNat ∧ (0x10 : Word).extractLsb' 4 28 ≠ 0#28 ∧
    (0x80000001 : Word).extractLsb' 4 28 ≠ 0#28 := by decide

/-- BusyDropsTheCommand: a command while BUSY; one while idle; OVR cleared by a command and by reset. -/
theorem witness_BusyDropsTheCommand :
    (running.withInputs [wrInput plat .cmd 4]).engine.phase = .ser ∧
    (running.withInputs [wrInput plat .cmd 4]).inputs = wrInput running.platform .cmd 4 :: [] ∧
    (built.withInputs [wrInput plat .cmd 4]).engine.phase = .idle ∧
    (∃ t, step ((built.withStatus ⟨false, true, .none⟩).withInputs [wrInput plat .cmd 0]) = .next t ∧
      t.status.ovr = false) ∧
    (∃ t, step ((built.withStatus ⟨false, true, .none⟩).withInputs [.reset 0]) = .next t ∧
      t.status.ovr = false) :=
  ⟨rfl, rfl, rfl, ⟨_, rfl, by decide⟩, ⟨_, rfl, by decide⟩⟩

/-- StatusWrittenOnlyAsStated: DONE and ERR cleared by NOP; DONE set by the last record, OVR by a command
while BUSY, ERR by a failing command. -/
theorem witness_StatusWrittenOnlyAsStated :
    (∃ t, step (finished.withInputs [wrInput plat .cmd 0]) = .next t ∧
      finished.status.done = true ∧ t.status.done = false) ∧
    (∃ t, step ((built.withStatus ⟨false, false, .badCmd⟩).withInputs [wrInput plat .cmd 0]) =
      .next t ∧ t.status.err ≠ .badCmd) ∧
    (step running1 = .next finished ∧ finished.status.done ≠ running1.status.done) ∧
    (∃ t, step (running.withInputs [wrInput plat .cmd 0]) = .next t ∧
      t.status.ovr ≠ running.status.ovr) ∧
    (∃ t, step (built.withInputs [wrInput plat .cmd 5]) = .next t ∧
      t.status.err ≠ built.status.err) :=
  ⟨⟨_, rfl, by decide⟩, ⟨_, rfl, by decide⟩, ⟨test_engine_last, by decide⟩, ⟨_, rfl, by decide⟩,
    ⟨_, rfl, by decide⟩⟩

/-- ErrorLeavesTheRest: a failing BUILD, BUILD_SERIALIZE (in either half) and SERIALIZE. -/
theorem witness_ErrorLeavesTheRest :
    (cfg 0 0 0 0).engine.phase = .idle ∧
    after (exec .build (cfg 0 0 0 0)) (fun t => t.status.err) = some .zeroLen ∧
    after (exec .buildSerialize (cfg 0 0 0 0)) (fun t => t.status.err) = some .zeroLen ∧
    after (exec .buildSerialize (cfg 0 1 1 8)) (fun t => t.status.err) = some .tblAlign ∧
    after (exec .serialize (cfg 0 0 0 0)) (fun t => t.status.err) = some .noChain := by decide

/-- FirstFailingCheckIsReported and CommandsFrame: an idle state; a command that runs and one that is
dropped. -/
theorem witness_CommandsFrame :
    built.engine.phase = .idle ∧ running.engine.phase = .ser ∧
    (∃ t, exec .serialize built = .next t) ∧ (∃ t, exec .discard running = .next t) :=
  ⟨by decide, by decide, ⟨_, rfl⟩, _, rfl⟩

/-- ConfigStoreReadsBack and ReadOnlyRegistersIgnoreWrites, CmdIsWriteOnly: a store to each kind of
register as the next input, also while BUSY. -/
theorem witness_registerAccess :
    (running.withInputs [wrInput plat .recIndex 0xFFFFFFFF]).inputs =
      wrInput running.platform .recIndex 0xFFFFFFFF :: [] ∧
    (built.withInputs [wrInput plat .status 1]).inputs = wrInput built.platform .status 1 :: [] ∧
    (built.withInputs [rdInput plat .cmd]).inputs = rdInput built.platform .cmd :: [] := by decide

/-- ReservedOffsets and RegisterReadsFollowTheMap, at the ends of the window. -/
theorem witness_windowOffsets :
    (0x3C % 4 = 0 ∧ 0x3C < 0x40) ∧
    (built.withInputs [.load (windowAddr plat 0x3C) .word]).inputs =
      .load (windowAddr built.platform 0x3C) .word :: [] ∧
    (built.withInputs [.store (windowAddr plat 0x30) .word 1]).inputs =
      .store (windowAddr built.platform 0x30) .word 1 :: [] := by decide

/-- ReadbackPort: a record in range, the first index out of range, no chain. -/
theorem witness_ReadbackPort :
    (ChainOk built.chain ∧ built.chain.valid = true ∧
      built.regs.recIndex.toNat < built.chain.count.toNat) ∧
    (2 : Word).toNat = built.chain.count.toNat ∧
    (ChainOk (State.resetOn plat).chain ∧ (State.resetOn plat).chain.valid = false) :=
  ⟨⟨blockOk_built.1, by decide⟩, by decide, chainOk_empty, rfl⟩

/-- OtherWindowAccessesRefused: a byte at the window's last address, a misaligned word that only ends
in it. -/
theorem witness_OtherWindowAccessesRefused :
    (touchesAnyWindow plat (0x0800003F : Word).toNat Size.byte.bytes = true ∧
      ¬(Size.byte = .word ∧ (0x0800003F : Word).toNat % 4 = 0)) ∧
    (touchesAnyWindow plat (0x07FFFFFD : Word).toNat Size.word.bytes = true ∧
      ¬(Size.word = .word ∧ (0x07FFFFFD : Word).toNat % 4 = 0)) ∧
    step (built.withInputs [.load 0x0800003F .byte]) = .refused (.badAccess 0x0800003F .byte) ∧
    step (built.withInputs [.store 0x07FFFFFD .word 0]) = .refused (.badAccess 0x07FFFFFD .word) :=
  ⟨by decide, by decide, rfl, rfl⟩

/-- StepRunsTheDecodedCommand: instance 0, and instance 1 of two with a command, an engine turn, a reset, a
register write and a register read. -/
theorem witness_StepRunsTheDecodedCommand :
    (built.withInputs [wrInput plat .cmd 2]).inputs = wrInput built.platform .cmd 2 :: [] ∧
    decode 2 = .ok .serialize ∧ Instr.serialize.wellFormed = true ∧
    (built.withInputs [wrInput plat .cmd 2]).inputs =
      (HostLine.cmd .serialize).inputs built.platform 0 ++ [] ∧
    1 < two.instances ∧ two.others.length = two.platform.otherPages.length ∧
    WindowsDistinct two.platform ∧
    (two.withInputs [.store 0x08000050 .word 2]).inputs =
      (HostLine.cmd .serialize).inputs two.platform 1 ++ [] ∧
    (∃ t, step (two.withInputs [.engine 1]) = .next t) ∧
    (∃ t, step (two.withInputs [.reset 1]) = .next t) ∧
    (∃ t, step (two.withInputs [wrInput (two.platform.focus 1) .srcLen 5]) = .next t) ∧
    (∃ t, step (two.withInputs [rdInput (two.platform.focus 1) .status]) = .next t) :=
  ⟨by decide, rfl, by decide, by decide, by decide, rfl, by unfold WindowsDistinct; decide, by decide,
    ⟨_, rfl⟩, ⟨_, rfl⟩, ⟨_, rfl⟩, ⟨_, rfl⟩⟩

/-- EngineWritesOneRecord: a record that is not the last, and the last one. -/
theorem witness_EngineWritesOneRecord :
    (running.inputs = [] ∧ running.engine.phase = .ser ∧
      recordAt running running.engine.serIdx.toNat = some ⟨0x21, 0x00, 65532, 0x88000000⟩ ∧
      touchesAnyWindow running.platform running.engine.serBase.toNat (8 * running.chain.count.toNat) =
        false ∧
      admitsStore running.platform
        (running.engine.serBase.toNat + 8 * running.engine.serIdx.toNat) 8 = true) ∧
    (recordAt running1 running1.engine.serIdx.toNat = some ⟨0x23, 0x00, 4468, 0x8800FFFC⟩ ∧
      running1.engine.serIdx.toNat + 1 = running1.chain.count.toNat ∧
      admitsStore running1.platform
        (running1.engine.serBase.toNat + 8 * running1.engine.serIdx.toNat) 8 = true) := by decide

/-- DisabledOrStuckEngineChangesNothing: idle; BUSY on the platform with a hole at the table. -/
theorem witness_DisabledOrStuckEngineChangesNothing :
    (built.inputs = [] ∧ built.engine.phase = .idle) ∧
    (∀ b ∈ built.others, b.engine.phase = .idle) ∧
    (let s : State := running.withPlatform platHole
     s.inputs = [] ∧ s.engine.phase = .ser ∧
     touchesAnyWindow s.platform s.engine.serBase.toNat (8 * s.chain.count.toNat) = false ∧
     admitsStore s.platform (s.engine.serBase.toNat + 8 * s.engine.serIdx.toNat) 8 = false) := by
  decide

/-- A table whose second record is the window's first 8 bytes. -/
def overWindow : State := built.withEngine ⟨.ser, 0, 0x07FFFFF8, 0⟩

theorem witness_TableOverWindowRefused :
    Inv overWindow ∧ overWindow.inputs = [] ∧ overWindow.engine.phase = .ser ∧
    touchesAnyWindow overWindow.platform overWindow.engine.serBase.toNat
      (8 * overWindow.chain.count.toNat) = true :=
  ⟨⟨⟨blockOk_built.1, fun _ => by decide, doneOk_of_not_done _ rfl⟩, noOthers, rfl,
    by decide⟩, by decide⟩

/-- ResetValues: a reset while idle, one while BUSY; an instance of two. -/
theorem witness_ResetValues :
    (running.withInputs [.reset 0]).inputs = .reset 0 :: [] ∧
    (built.withInputs [.reset 0]).engine.phase = .idle ∧
    (built.withInputs [.reset 0]).inputs = .reset 0 :: [] ∧ 1 < platTwo.instances := by decide

/-- ResetDuringSerialization. -/
theorem witness_ResetDuringSerialization :
    Inv (running1.withInputs [.reset 0]) ∧ TableInMemory (running1.withInputs [.reset 0]) ∧
    running1.engine.phase = .ser ∧ (running1.withInputs [.reset 0]).inputs = .reset 0 :: [] :=
  ⟨inv_running1, table_running1, rfl, rfl⟩

/-- A byte of the record in flight whose old and new values agree is seen, whatever the free value is. -/
theorem seen_in_flight :
    seenByte ((running1.withMem mem2).withInputs []) 0x90000008 = some 0x23 := by
  have h : engineTurn (((running1.withMem mem2).withInputs []).focus 0) =
    .write 0x90000008 ⟨0x23, 0x00, 4468, 0x8800FFFC⟩ := by decide
  rw [seenByte, show State.instances ((running1.withMem mem2).withInputs []) = 0 + 1 from rfl,
    seenByteUpTo, flightByte, h]
  simp only
  split <;> decide

/-- A byte of a completed record is seen as memory holds it. -/
theorem seen_completed : seenByte (running1.withInputs []) 0x90000002 = some 0xFC := by
  rw [seenByte_quiet]
  · decide
  · intro k a r hk hw
    obtain rfl : k = 0 := Nat.lt_one_iff.mp hk
    obtain ⟨-, -, rfl, -⟩ := engineTurn_write _ a r hw
    exact .inl (by decide)

/-- A byte load outside the windows that meets a byte answers a next state. -/
theorem byteLoad_next (s : State) (a : Word) (b : Byte)
    (hw : windowOf s.platform a.toNat 1 = none) (ha : admitsLoad s.platform a.toNat 1 = true)
    (hb : seenByte s a.toNat = some b) : ∃ t, busLoad a .byte s = .next t := by
  simp [busLoad, Size.bytes, hw, ha, seenBytes, hb]

/-- LoadDuringSerialization: a byte of a completed record, and a byte of the record in flight. -/
theorem witness_LoadDuringSerialization :
    Inv (running1.withInputs [.load 0x90000002 .byte]) ∧ running1.engine.phase = .ser ∧
    touchesAnyWindow plat (0x90000002 : Word).toNat 1 = false ∧ TablesDisjoint running1 ∧
    running1.engine.serBase.toNat ≤ (0x90000002 : Word).toNat ∧
    (0x90000002 : Word).toNat < running1.engine.serBase.toNat + 8 * running1.engine.serIdx.toNat ∧
    (∃ t, step (running1.withInputs [.load 0x90000002 .byte]) = .next t) ∧
    (∃ t, step ((running1.withMem mem2).withInputs [.load 0x90000008 .byte]) = .next t) :=
  ⟨inv_running1, rfl, by decide, disjoint_alone _ rfl, by decide, by decide,
    byteLoad_next (running1.withInputs []) 0x90000002 _ (by decide) (by decide) seen_completed,
    byteLoad_next ((running1.withMem mem2).withInputs []) 0x90000008 _ (by decide) (by decide)
      seen_in_flight⟩

/-- RecordLoads, on the example's first record. -/
theorem witness_RecordLoads :
    AllIdle finished ∧
    (0x90000004 : Word).toNat = (0x90000000 : Word).toNat + 4 ∧
    HoldsBytes finished.mem (0x90000000 : Word).toNat
      (formatRecord ⟨0x21, 0x00, 65532, 0x88000000⟩) ∧
    touchesAnyWindow finished.platform (0x90000000 : Word).toNat 8 = false ∧
    admitsLoad finished.platform (0x90000000 : Word).toNat 8 = true := by
  unfold HoldsBytes AllIdle; decide

/-- AgentAccessFaults: a store and a load where no memory is, a load of a byte nothing wrote. -/
theorem witness_AgentAccessFaults :
    (touchesAnyWindow platHole (0x90000000 : Word).toNat Size.word.bytes = false ∧
      admitsStore platHole (0x90000000 : Word).toNat Size.word.bytes = false ∧
      admitsLoad platHole (0x90000000 : Word).toNat Size.word.bytes = false) ∧
    (touchesAnyWindow plat (0x90000010 : Word).toNat Size.byte.bytes = false ∧
      admitsLoad plat (0x90000010 : Word).toNat Size.byte.bytes = true ∧
      AllIdle finished ∧
      0 < Size.byte.bytes ∧ memGet finished.mem ((0x90000010 : Word).toNat + 0) = none) := by
  unfold AllIdle; decide

/-- EveryStepKeepsTheInvariant and OnlyHostStoresChangeConfig: a state with the invariant and a step that
changes a configuration register; two instances, and a step of the second. -/
theorem witness_EveryStepKeepsTheInvariant :
    Inv (running.withInputs [wrInput plat .srcLen 5]) ∧
    ∃ t, step (running.withInputs [wrInput plat .srcLen 5]) = .next t ∧ t.regs ≠ running.regs ∧
    Inv two ∧ ∃ u, step two = .next u ∧ u.blockAt 1 ≠ two.blockAt 1 :=
  ⟨inv_running, _, rfl, by decide, inv_two, _, rfl, by decide⟩

/-- EveryStepKeepsTheTable: an engine turn, and another agent's store just past the table. -/
theorem witness_EveryStepKeepsTheTable :
    (Inv running1 ∧ TableInMemory running1 ∧ TablesDisjoint running1 ∧ TablesDisjoint two ∧ step running1 = .next finished ∧
      ∀ i rest, running1.inputs = i :: rest → ¬ storesToTable running1 i) ∧
    (∃ t, step (finished.withInputs [.store 0x90000010 .byte 7]) = .next t ∧
      ¬ storesToTable finished (.store 0x90000010 .byte 7)) :=
  ⟨⟨inv_running1, table_running1, disjoint_alone _ rfl, by unfold TablesDisjoint; decide, test_engine_last, fun _ _ h => by cases h⟩, _, rfl,
    fun h => absurd h.1 (by decide)⟩

/-- FinishedTableIsSeen, at the table's last byte. -/
theorem witness_FinishedTableIsSeen :
    Inv (finished.withInputs [.load 0x9000000F .byte]) ∧
    TableInMemory (finished.withInputs [.load 0x9000000F .byte]) ∧
    TablesDisjoint finished ∧ finished.status.done = true ∧
    15 < 8 * finished.chain.count.toNat ∧
    (0x9000000F : Word).toNat = finished.engine.serBase.toNat + 15 ∧
    touchesAnyWindow finished.platform (0x9000000F : Word).toNat 1 = false ∧
    admitsLoad finished.platform (0x9000000F : Word).toNat 1 = true :=
  ⟨inv_finished, table_finished, disjoint_alone _ rfl, by decide⟩

/-- ChainAndEngineChangeOnlyByCommand: a step while BUSY, here a dropped DISCARD, and one while idle that
starts a serialization. -/
theorem witness_ChainAndEngineChangeOnlyByCommand :
    (running.engine.phase = .ser ∧
      ∃ t, step (running.withInputs [wrInput plat .cmd 4]) = .next t) ∧
    (built.engine.phase = .idle ∧
      ∃ t, step (built.withInputs [wrInput plat .cmd 2]) = .next t ∧ t.engine ≠ built.engine) :=
  ⟨⟨rfl, _, rfl⟩, rfl, _, rfl, by decide⟩

/-- OnlyEngineAndAgentsWriteMemory: an engine turn and a store that change a byte. -/
theorem witness_OnlyEngineAndAgentsWriteMemory :
    (step running1 = .next finished ∧
      memGet finished.mem 0x90000008 ≠ memGet running1.mem 0x90000008) ∧
    (∃ t, step (built.withInputs [.store 0x1000 .half 0x1234]) = .next t ∧
      memGet t.mem 0x1001 ≠ memGet built.mem 0x1001) :=
  ⟨⟨test_engine_last, by decide⟩, _, rfl, by decide⟩

/-- SerializationCompletes. -/
theorem witness_SerializationCompletes :
    Inv running ∧ running.engine.phase = .ser ∧ running.inputs = [] ∧ TableWritable running ∧
    TableInMemory running ∧ 0 < running.chain.count.toNat - running.engine.serIdx.toNat :=
  ⟨inv_running, rfl, rfl, by unfold TableWritable; decide, table_running, by decide⟩

/-- SerializingAgainChangesNoByte. -/
theorem witness_SerializingAgainChangesNoByte :
    Inv finished ∧ finished.engine.phase = .idle ∧ finished.inputs = [] ∧
    finished.chain.valid = true ∧ finished.regs.tblBase.toNat % 8 = 0 ∧
    8 * finished.chain.count.toNat ≤ finished.regs.tblCap.toNat ∧
    finished.regs.tblBase.toNat + 8 * finished.chain.count.toNat ≤ 4294967296 ∧
    touchesAnyWindow finished.platform finished.regs.tblBase.toNat (8 * finished.chain.count.toNat) =
      false ∧
    admitsStore finished.platform finished.regs.tblBase.toNat (8 * finished.chain.count.toNat) =
      true ∧
    HoldsBytes finished.mem finished.regs.tblBase.toNat (table finished) :=
  ⟨inv_finished, rfl, rfl, rfl, by decide, by decide, by decide, by decide, by decide,
    holds_finished⟩

end Sys2Proof.Tests
end

section
/-! The window's command register (10_state.md R26): what a write to CMD runs and what a read of it
answers, and the next step's access to it. -/

namespace Sys2Proof.Proofs

open Sys2Proof.Machine

/-- 42_host_commands.md R89: CMD stores nothing, so writing it is running the command. -/
@[simp] theorem writeReg_cmd (v : Word) (s : State) : writeReg .cmd v s = commandWrite v s := rfl

/-- 42_host_commands.md R90: CMD has no value to return. -/
@[simp] theorem readReg_cmd (s : State) : readReg .cmd s = 0 := rfl

/-- Settles O38: the general step equations for a register's store and load, at CMD. -/
theorem cmdIsWriteOnly : Obligations.CmdIsWriteOnly := by
  intro s v rest
  constructor
  · intro hwrite
    rw [step_wrInput s .cmd v rest hwrite, writeReg_cmd]
  · intro hread
    simp [step_rdInput s .cmd rest hread]

end Sys2Proof.Proofs
end

section
/-! The builder's loop record by record (40_chain_builder.md R64, R65), and the two ATTR bytes and the
zero byte it emits (30_encoding.md R57). -/

namespace Sys2Proof.Proofs

open Sys2Proof.Machine

/-- Record `i` of a chain for `rem` bytes from `cur` (40_chain_builder.md R65): it is the last one when
the segments 0 .. i cover all of them. -/
def segmentRecord (cur rem i : Nat) : Record where
  attr := if rem ≤ Config.maxSeg * (i + 1) then attrEnd else attrMid
  reserved := 0
  length := BitVec.ofNat 16 (min Config.maxSeg (rem - Config.maxSeg * i))
  address := BitVec.ofNat 32 (cur + Config.maxSeg * i)

/-- What is left after one full segment is cut off has the same records, one index earlier. -/
theorem segmentRecord_succ (cur rem i : Nat) (h : Config.maxSeg < rem) :
    segmentRecord (cur + Config.maxSeg) (rem - Config.maxSeg) i = segmentRecord cur rem (i + 1) := by
  have hend : rem - Config.maxSeg ≤ Config.maxSeg * (i + 1) ↔ rem ≤ Config.maxSeg * (i + 1 + 1) := by
    simp only [Config.maxSeg] at h ⊢; omega
  have hlen : rem - Config.maxSeg - Config.maxSeg * i = rem - Config.maxSeg * (i + 1) := by
    simp only [Config.maxSeg]; omega
  have haddr : cur + Config.maxSeg + Config.maxSeg * i = cur + Config.maxSeg * (i + 1) := by ring
  simp only [segmentRecord, hend, hlen, haddr]

@[simp] theorem buildLoop_done (fuel cur : Nat) : buildLoop fuel cur 0 = [] := by
  cases fuel <;> simp [buildLoop]

theorem buildLoop_last (fuel cur rem : Nat) (hpos : 0 < rem) (hle : rem ≤ Config.maxSeg) :
    buildLoop (fuel + 1) cur rem = [segmentRecord cur rem 0] := by
  simp [buildLoop, segmentRecord, hle, Nat.pos_iff_ne_zero.mp hpos]

theorem buildLoop_mid (fuel cur rem : Nat) (h : Config.maxSeg < rem) :
    buildLoop (fuel + 1) cur rem =
      segmentRecord cur rem 0 :: buildLoop fuel (cur + Config.maxSeg) (rem - Config.maxSeg) := by
  simp [buildLoop, segmentRecord, Nat.not_le.mpr h, Nat.ne_of_gt (Nat.zero_lt_of_lt h),
    Nat.min_eq_left h.le]

/-- With fuel for all of its bytes the loop emits record `i` exactly when segment `i` starts before the
end of the buffer. -/
theorem buildLoop_getElem? (fuel cur rem i : Nat) (hfuel : rem ≤ Config.maxSeg * fuel) :
    (buildLoop fuel cur rem)[i]? =
      if Config.maxSeg * i < rem then some (segmentRecord cur rem i) else none := by
  induction fuel generalizing cur rem i with
  | zero =>
    obtain rfl : rem = 0 := Nat.le_zero.mp hfuel
    simp
  | succ fuel ih =>
    obtain rfl | hpos := Nat.eq_zero_or_pos rem
    · simp
    obtain hle | hgt := le_or_gt rem Config.maxSeg
    · rw [buildLoop_last fuel cur rem hpos hle]
      cases i with
      | zero => simp [hpos]
      | succ i =>
        have hout : ¬ Config.maxSeg * (i + 1) < rem := by
          simp only [Config.maxSeg] at hle ⊢; omega
        simp [hout]
    · rw [buildLoop_mid fuel cur rem hgt]
      cases i with
      | zero => simp [Nat.zero_lt_of_lt hgt]
      | succ i =>
        have hrest : rem - Config.maxSeg ≤ Config.maxSeg * fuel := by
          simp only [Config.maxSeg] at hfuel ⊢; omega
        have hstart : Config.maxSeg * i < rem - Config.maxSeg ↔ Config.maxSeg * (i + 1) < rem := by
          simp only [Config.maxSeg]; omega
        rw [List.getElem?_cons_succ, ih _ _ i hrest, segmentRecord_succ cur rem i hgt]
        simp only [hstart]

/-- 40_chain_builder.md R77: ceil_div(L, MAX_SEG) iterations cover L bytes. -/
theorem le_maxSeg_mul_ceilDiv (n : Nat) : n ≤ Config.maxSeg * ceilDiv n Config.maxSeg := by
  simp only [ceilDiv, Config.maxSeg]; omega

/-- 40_chain_builder.md R65, every record of `BuildRef(A, L)`. -/
theorem buildRef_getElem? (a l : Word) (ch : List Record) (i : Nat) (h : buildRef a l = some ch) :
    ch[i]? = if Config.maxSeg * i < l.toNat then some (segmentRecord a.toNat l.toNat i) else none := by
  obtain ⟨-, hch⟩ := Option.ite_none_right_eq_some.mp h
  obtain rfl := Option.some.inj hch
  exact buildLoop_getElem? _ _ _ i (le_maxSeg_mul_ceilDiv l.toNat)

/-- A record of a built chain is the last one when no byte of the buffer lies behind its segment. -/
theorem buildRef_last_iff (a l : Word) (ch : List Record) (i : Nat) (r : Record)
    (h : buildRef a l = some ch) (hr : ch[i]? = some r) :
    i + 1 = ch.length ↔ l.toNat ≤ Config.maxSeg * (i + 1) := by
  have hi : i < ch.length := (List.getElem?_eq_some_iff.mp hr).1
  have hnext := buildRef_getElem? a l ch (i + 1) h
  calc i + 1 = ch.length
    _ ↔ ch[i + 1]? = none := by rw [List.getElem?_eq_none_iff]; omega
    _ ↔ l.toNat ≤ Config.maxSeg * (i + 1) := by simp [hnext]

/-- A record of a built chain is the closed form's. -/
theorem buildRef_record (a l : Word) (ch : List Record) (i : Nat) (r : Record)
    (h : buildRef a l = some ch) (hr : ch[i]? = some r) : r = segmentRecord a.toNat l.toNat i := by
  rw [buildRef_getElem? a l ch i h] at hr
  obtain ⟨-, hrec⟩ := Option.ite_none_right_eq_some.mp hr
  exact (Option.some.inj hrec).symm

/-- Settles O9: the closed form's ATTR byte, with its END condition read as "last index". -/
theorem emittedAttributes : Obligations.EmittedAttributes := by
  refine ⟨by decide, by decide, fun a l ch i r h hr => ?_⟩
  have hlast := buildRef_last_iff a l ch i r h hr
  obtain rfl := buildRef_record a l ch i r h hr
  exact ⟨by simp only [segmentRecord, hlast], rfl⟩

end Sys2Proof.Proofs
end

section
/-! The window's reserved offsets (30_encoding.md R48), and the next step's access to any aligned offset
of the window. -/

namespace Sys2Proof.Proofs

open Sys2Proof.Machine

/-- 42_host_commands.md R89: a 32-bit store to an offset of the window as the next input. -/
theorem step_storeOffset (s : State) (off : Nat) (v : DWord) (rest : List Input)
    (hlt : off < 64) (h4 : off % 4 = 0)
    (h : s.inputs = .store (windowAddr s.platform off) .word v :: rest) :
    step s = writeReg (regAt off) (v.setWidth 32) (s.withInputs rest) :=
  (step_input s _ rest h).trans (busStore_window (s.withInputs rest) off v hlt h4)

/-- 42_host_commands.md R90: a 32-bit load from an offset of the window as the next input. -/
theorem step_loadOffset (s : State) (off : Nat) (rest : List Input)
    (hlt : off < 64) (h4 : off % 4 = 0)
    (h : s.inputs = .load (windowAddr s.platform off) .word :: rest) :
    step s = .next ((s.withInputs rest).withLastRead
      (some ((readReg (regAt off) (s.withInputs rest)).setWidth 64))) :=
  (step_input s _ rest h).trans (busLoad_window (s.withInputs rest) off hlt h4)

/-- 30_encoding.md R48: no register takes a write to a reserved offset. -/
@[simp] theorem writeReg_unmapped (v : Word) (s : State) : writeReg .unmapped v s = .next s := rfl

/-- 30_encoding.md R48: a reserved offset reads 0. -/
@[simp] theorem readReg_unmapped (s : State) : readReg .unmapped s = 0 := rfl

/-- 30_encoding.md R47, R48: the reserved offsets are aligned offsets of the window with no register. -/
theorem reserved_unmapped (off : Nat) (h : off = 0x30 ∨ off = 0x34 ∨ off = 0x38 ∨ off = 0x3C) :
    off < 64 ∧ off % 4 = 0 ∧ regAt off = .unmapped := by
  rcases h with rfl | rfl | rfl | rfl <;> decide

/-- Settles O36: the step equations of a window access, at an offset with no register. -/
theorem reservedOffsets : Obligations.ReservedOffsets := by
  intro s off v rest hoff
  obtain ⟨hlt, h4, hreg⟩ := reserved_unmapped off hoff
  constructor
  · intro hstore
    rw [step_storeOffset s off v rest hlt h4 hstore, hreg, writeReg_unmapped]
  · intro hload
    simp [step_loadOffset s off rest hlt h4 hload, hreg]

end Sys2Proof.Proofs
end

section
/-! The built chain as a whole (40_chain_builder.md R65): it is the list of the closed form's records, one
for each segment, which fixes its number of records, its lengths and its addresses (R73 to R75). -/

namespace Sys2Proof.Proofs

open Sys2Proof.Machine

/-- 40_chain_builder.md R65, R77: the segments ceil_div counts are those that start before the end. -/
theorem lt_ceilDiv_maxSeg_iff (n i : Nat) : i < ceilDiv n Config.maxSeg ↔ Config.maxSeg * i < n := by
  simp only [ceilDiv, Config.maxSeg]; omega

/-- 40_chain_builder.md R75: at least one byte takes at least one record. -/
theorem one_le_ceilDiv_maxSeg (n : Nat) (h : 1 ≤ n) : 1 ≤ ceilDiv n Config.maxSeg :=
  (lt_ceilDiv_maxSeg_iff n 0).mpr h

/-- 40_chain_builder.md R75: what one record can carry takes one record. -/
theorem ceilDiv_maxSeg_eq_one (n : Nat) (h : 1 ≤ n) (hle : n ≤ Config.maxSeg) :
    ceilDiv n Config.maxSeg = 1 := by
  simp only [ceilDiv, Config.maxSeg] at hle ⊢; omega

/-- 40_chain_builder.md R65: the whole chain the loop emits with fuel for every segment. -/
theorem buildLoop_ceilDiv (cur rem : Nat) :
    buildLoop (ceilDiv rem Config.maxSeg) cur rem =
      (List.range (ceilDiv rem Config.maxSeg)).map (segmentRecord cur rem) := by
  refine List.ext_getElem? fun i => ?_
  rw [buildLoop_getElem? _ cur rem i (le_maxSeg_mul_ceilDiv rem), List.getElem?_map]
  by_cases hi : i < ceilDiv rem Config.maxSeg
  · simp [List.getElem?_range hi, (lt_ceilDiv_maxSeg_iff rem i).mp hi]
  · simp [hi, mt (lt_ceilDiv_maxSeg_iff rem i).mpr hi]

/-- 40_chain_builder.md R65, R66: what `BuildRef(A, L)` is, and where it is. -/
theorem buildRef_eq_some_iff (a l : Word) (ch : List Record) :
    buildRef a l = some ch ↔
      (l.toNat = 0 ∨ a.toNat + l.toNat ≤ Config.addrSpace) ∧
      ch = (List.range (ceilDiv l.toNat Config.maxSeg)).map (segmentRecord a.toNat l.toNat) := by
  rw [buildRef, buildLoop_ceilDiv, Option.ite_none_right_eq_some, Option.some.injEq, eq_comm (b := ch)]

theorem buildRef_eq_map (a l : Word) (ch : List Record) (h : buildRef a l = some ch) :
    ch = (List.range (ceilDiv l.toNat Config.maxSeg)).map (segmentRecord a.toNat l.toNat) :=
  ((buildRef_eq_some_iff a l ch).mp h).2

/-- 40_chain_builder.md R66: a buffer with a chain ends inside the address space. -/
theorem buildRef_fits (a l : Word) (ch : List Record) (hl : 1 ≤ l.toNat) (h : buildRef a l = some ch) :
    a.toNat + l.toNat ≤ Config.addrSpace :=
  ((buildRef_eq_some_iff a l ch).mp h).1.resolve_left (Nat.ne_of_gt hl)

/-- 40_chain_builder.md R75. -/
theorem buildRef_length (a l : Word) (ch : List Record) (h : buildRef a l = some ch) :
    ch.length = ceilDiv l.toNat Config.maxSeg := by
  simp [buildRef_eq_map a l ch h]

/-- A record of a built chain stands for a segment that starts before the end of the buffer. -/
theorem buildRef_segment_starts (a l : Word) (ch : List Record) (i : Nat) (r : Record)
    (h : buildRef a l = some ch) (hr : ch[i]? = some r) : Config.maxSeg * i < l.toNat := by
  have hi : i < ch.length := (List.getElem?_eq_some_iff.mp hr).1
  rwa [buildRef_length a l ch h, lt_ceilDiv_maxSeg_iff] at hi

/-- The length field holds the segment's length: 16 bits are enough for MAX_SEG. -/
@[simp] theorem segmentRecord_length (cur rem i : Nat) :
    (segmentRecord cur rem i).length.toNat = min Config.maxSeg (rem - Config.maxSeg * i) := by
  refine Nat.mod_eq_of_lt (lt_of_le_of_lt (Nat.min_le_left _ _) ?_)
  decide

/-- The address field holds the segment's address: a buffer inside the address space does not wrap. -/
theorem segmentRecord_address (cur rem i : Nat) (hfits : cur + rem ≤ Config.addrSpace)
    (hi : Config.maxSeg * i < rem) :
    (segmentRecord cur rem i).address.toNat = cur + Config.maxSeg * i := by
  have hlt : cur + Config.maxSeg * i < Config.addrSpace := by omega
  exact Nat.mod_eq_of_lt hlt

/-- The first `n` segments of `total` bytes cover `MAX_SEG * n` of them, or all. -/
theorem sum_segmentLengths (total n : Nat) :
    ((List.range n).map fun i => min Config.maxSeg (total - Config.maxSeg * i)).sum =
      min total (Config.maxSeg * n) := by
  induction n with
  | zero => simp
  | succ n ih =>
    rw [List.range_succ, List.map_append, List.sum_append, ih, List.map_singleton, List.sum_singleton]
    simp only [Config.maxSeg]
    omega

/-- The lengths of a built chain are those of the segments the buffer is cut into. -/
theorem buildRef_lengths (a l : Word) (ch : List Record) (h : buildRef a l = some ch) :
    ch.map (fun r => r.length.toNat) =
      (List.range (ceilDiv l.toNat Config.maxSeg)).map fun i =>
        min Config.maxSeg (l.toNat - Config.maxSeg * i) := by
  simp [buildRef_eq_map a l ch h, Function.comp_def]

/-- The first `n` lengths of a built chain sum to the part of L that `n` full segments cover. -/
theorem buildRef_sum_take (a l : Word) (ch : List Record) (n : Nat) (h : buildRef a l = some ch)
    (hn : n ≤ ch.length) :
    ((ch.take n).map (fun r => r.length.toNat)).sum = min l.toNat (Config.maxSeg * n) := by
  rw [buildRef_length a l ch h] at hn
  rw [List.map_take, buildRef_lengths a l ch h, ← List.map_take, List.take_range, Nat.min_eq_left hn,
    sum_segmentLengths]

/-- Settles O13: the running sum of the lengths, taken over the whole chain, whose segments cover L. -/
theorem lengthsSumToTotal : Obligations.LengthsSumToTotal := by
  intro a l ch _ h
  have hcover : l.toNat ≤ Config.maxSeg * ch.length := by
    rw [buildRef_length a l ch h]
    exact le_maxSeg_mul_ceilDiv l.toNat
  have hsum := buildRef_sum_take a l ch ch.length h le_rfl
  rwa [List.take_length, Nat.min_eq_left hcover] at hsum

/-- Settles O14: the segments before a record are all full, so their sum is `MAX_SEG * i`. -/
theorem addressesContiguous : Obligations.AddressesContiguous := by
  intro a l ch i r hl h hr
  have hstart := buildRef_segment_starts a l ch i r h hr
  have hi : i < ch.length := (List.getElem?_eq_some_iff.mp hr).1
  have haddr : r.address.toNat = a.toNat + Config.maxSeg * i := by
    rw [buildRef_record a l ch i r h hr]
    exact segmentRecord_address _ _ i (buildRef_fits a l ch hl h) hstart
  have hsum := buildRef_sum_take a l ch i h hi.le
  rw [Nat.min_eq_right hstart.le] at hsum
  exact ⟨by rw [hsum, haddr], haddr⟩

/-- Settles O15: `ceil_div` at and around MAX_SEG, and the two lengths of the list form at 65533. -/
theorem chainLength : Obligations.ChainLength := by
  refine ⟨fun a l ch hl h => ?_, fun a => ?_⟩
  · have hlen := buildRef_length a l ch h
    have hone : l.toNat ≤ Config.maxSeg → ch.length = 1 := fun hle =>
      hlen.trans (ceilDiv_maxSeg_eq_one _ hl hle)
    refine ⟨hlen, hlen ▸ one_le_ceilDiv_maxSeg _ hl, hone, fun h65532 => hone h65532.le,
      fun h65533 => ?_⟩
    have htwo : ceilDiv l.toNat Config.maxSeg = 2 := by rw [h65533]; decide
    refine ⟨hlen.trans htwo, ?_⟩
    rw [buildRef_lengths a l ch h, htwo, h65533]
    decide
  · exact (buildRef_eq_some_iff a 0 []).mpr ⟨.inl rfl, rfl⟩

/-- 40_chain_builder.md R65: L_last, the bytes the last of ceil_div(L, MAX_SEG) segments holds. -/
theorem lastLength_bounds (n : Nat) (h : 1 ≤ n) :
    1 ≤ n - Config.maxSeg * (ceilDiv n Config.maxSeg - 1) ∧
      n - Config.maxSeg * (ceilDiv n Config.maxSeg - 1) ≤ Config.maxSeg := by
  simp only [ceilDiv, Config.maxSeg]; omega

/-- 40_chain_builder.md R65: L_last is the remainder of L by MAX_SEG, with MAX_SEG in place of 0. -/
theorem lastLength_eq_mod (n : Nat) (h : 1 ≤ n) :
    n - Config.maxSeg * (ceilDiv n Config.maxSeg - 1) =
      if n % Config.maxSeg = 0 then Config.maxSeg else n % Config.maxSeg := by
  by_cases hmod : n % Config.maxSeg = 0
  · rw [if_pos hmod]
    simp only [ceilDiv, Config.maxSeg] at hmod ⊢; omega
  · rw [if_neg hmod]
    simp only [ceilDiv, Config.maxSeg] at hmod ⊢; omega

/-- 40_chain_builder.md R65: a segment is full unless it is the last one. -/
theorem segmentLength_eq (n i : Nat) (hi : i < ceilDiv n Config.maxSeg) :
    min Config.maxSeg (n - Config.maxSeg * i) =
      if i + 1 = ceilDiv n Config.maxSeg then n - Config.maxSeg * (ceilDiv n Config.maxSeg - 1)
      else Config.maxSeg := by
  have hn : 1 ≤ n := Nat.one_le_of_lt ((lt_ceilDiv_maxSeg_iff n i).mp hi)
  obtain hlast | hmid := eq_or_ne (i + 1) (ceilDiv n Config.maxSeg)
  · rw [if_pos hlast, ← hlast, Nat.add_sub_cancel]
    have hbound := (lastLength_bounds n hn).2
    rw [← hlast, Nat.add_sub_cancel] at hbound
    exact Nat.min_eq_right hbound
  · have hnext : Config.maxSeg * (i + 1) < n := (lt_ceilDiv_maxSeg_iff n (i + 1)).mp (by omega)
    rw [if_neg hmid]
    rw [Nat.mul_succ] at hnext
    omega

/-- Settles O7: each record of the list form, with its END condition and its length read as "last
index", and the arithmetic of the last length. -/
theorem buildClosedForm : Obligations.BuildClosedForm := by
  intro a l hl hfits
  obtain ⟨ch, h⟩ : ∃ ch, buildRef a l = some ch :=
    ⟨_, (buildRef_eq_some_iff a l _).mpr ⟨.inr hfits, rfl⟩⟩
  have hlen := buildRef_length a l ch h
  obtain ⟨hpos, hle⟩ := lastLength_bounds l.toNat hl
  have hmod := lastLength_eq_mod l.toNat hl
  rw [← hlen] at hpos hle hmod
  refine ⟨ch, h, hlen, fun i hi => ?_, hpos, hle, fun hne => by rw [hmod, if_neg hne],
    fun heq => by rw [hmod, if_pos heq]⟩
  have hr : ch[i]? = some ch[i] := List.getElem?_eq_getElem hi
  have hlast := buildRef_last_iff a l ch i _ h hr
  have hseg := segmentLength_eq l.toNat i (hlen ▸ hi)
  obtain ⟨hmid, hend, -⟩ := emittedAttributes
  rw [hr, buildRef_record a l ch i _ h hr, segmentRecord, hseg, ← hlen, hmid, hend]
  simp only [← hlast]

end Sys2Proof.Proofs
end

section
/-! What the two ATTR bytes of a built chain say (30_encoding.md R55, R57), and with it the bits of its
records: VALID, END, INT, ACT and the reserved ones (40_chain_builder.md R70 to R72, R76). -/

namespace Sys2Proof.Proofs

open Sys2Proof.Machine

/-- 30_encoding.md R57: the builder has only two ATTR bytes. -/
theorem segmentRecord_attr_cases (cur rem i : Nat) :
    (segmentRecord cur rem i).attr = attrMid ∨ (segmentRecord cur rem i).attr = attrEnd := by
  unfold segmentRecord
  split
  · exact .inr rfl
  · exact .inl rfl

@[simp] theorem segmentRecord_validBit (cur rem i : Nat) :
    (segmentRecord cur rem i).validBit = true := by
  obtain h | h := segmentRecord_attr_cases cur rem i <;> rw [Record.validBit, h] <;> decide

@[simp] theorem segmentRecord_action (cur rem i : Nat) :
    (segmentRecord cur rem i).action = some .transfer := by
  obtain h | h := segmentRecord_attr_cases cur rem i <;> rw [Record.action, Record.act, h] <;> decide

@[simp] theorem segmentRecord_intBit (cur rem i : Nat) :
    (segmentRecord cur rem i).intBit = false := by
  obtain h | h := segmentRecord_attr_cases cur rem i <;> rw [Record.intBit, h] <;> decide

/-- 30_encoding.md R55: bits 3, 6 and 7 of the ATTR byte. -/
theorem segmentRecord_reservedBits (cur rem i : Nat) :
    (segmentRecord cur rem i).attr.getLsbD 3 = false ∧
      (segmentRecord cur rem i).attr.getLsbD 6 = false ∧
      (segmentRecord cur rem i).attr.getLsbD 7 = false := by
  obtain h | h := segmentRecord_attr_cases cur rem i <;> rw [h] <;> decide

/-- END tells the segment that reaches the end of the buffer. -/
theorem segmentRecord_endBit_iff (cur rem i : Nat) :
    (segmentRecord cur rem i).endBit = true ↔ rem ≤ Config.maxSeg * (i + 1) := by
  have hmid : attrMid.getLsbD 1 = false := by decide
  have hend : attrEnd.getLsbD 1 = true := by decide
  by_cases hcover : rem ≤ Config.maxSeg * (i + 1)
  · have hattr : (segmentRecord cur rem i).attr = attrEnd := if_pos hcover
    exact iff_of_true (by rw [Record.endBit, hattr, hend]) hcover
  · have hattr : (segmentRecord cur rem i).attr = attrMid := if_neg hcover
    exact iff_of_false (by rw [Record.endBit, hattr, hmid]; exact Bool.false_ne_true) hcover

/-- 40_chain_builder.md R75: a chain for at least one byte has a record. -/
theorem buildRef_ne_nil (a l : Word) (ch : List Record) (hl : 1 ≤ l.toNat)
    (h : buildRef a l = some ch) : ch ≠ [] := by
  refine List.ne_nil_of_length_pos ?_
  rw [buildRef_length a l ch h]
  exact one_le_ceilDiv_maxSeg _ hl

/-- Each record of a built chain, wherever it stands, is one of the closed form's. -/
theorem buildRef_mem (a l : Word) (ch : List Record) (r : Record) (h : buildRef a l = some ch)
    (hr : r ∈ ch) : ∃ i, Config.maxSeg * i < l.toNat ∧ r = segmentRecord a.toNat l.toNat i := by
  obtain ⟨i, hi⟩ := List.mem_iff_getElem?.mp hr
  exact ⟨i, buildRef_segment_starts a l ch i r h hi, buildRef_record a l ch i r h hi⟩

/-- Settles O10: both sides say that no byte of the buffer lies behind the segment. -/
theorem oneEndAndItIsLast : Obligations.OneEndAndItIsLast := by
  intro a l ch hl h
  refine ⟨buildRef_ne_nil a l ch hl h, fun i r hr => ?_⟩
  rw [buildRef_last_iff a l ch i r h hr, buildRef_record a l ch i r h hr, segmentRecord_endBit_iff]

/-- Settles O11: a record with a successor stands for a full segment. -/
theorem nonTerminalRecords : Obligations.NonTerminalRecords := by
  intro a l ch i r _ h hr hnext
  rw [buildRef_length a l ch h] at hnext
  rw [buildRef_record a l ch i r h hr, segmentRecord_length,
    segmentLength_eq _ i (Nat.lt_of_succ_lt hnext), if_neg hnext.ne]
  exact ⟨segmentRecord_action .., segmentRecord_validBit .., rfl⟩

/-- Settles O12: the last record is one of the closed form's, so its segment is not empty. -/
theorem terminalRecord : Obligations.TerminalRecord := by
  intro a l ch hl h
  have hne := buildRef_ne_nil a l ch hl h
  obtain ⟨i, hstart, hr⟩ := buildRef_mem a l ch _ h (List.getLast_mem hne)
  refine ⟨ch.getLast hne, List.getLast?_eq_some_getLast hne, ?_⟩
  rw [hr, segmentRecord_length]
  have hpos : 0 < Config.maxSeg := by decide
  exact ⟨segmentRecord_validBit .., segmentRecord_action .., by omega, Nat.min_le_left _ _⟩

/-- Settles O16: the two ATTR bytes, bit by bit. -/
theorem unusedBitsAreZero : Obligations.UnusedBitsAreZero := by
  intro a l ch r _ h hr
  obtain ⟨i, -, rfl⟩ := buildRef_mem a l ch r h hr
  obtain ⟨h3, h6, h7⟩ := segmentRecord_reservedBits a.toNat l.toNat i
  exact ⟨segmentRecord_intBit .., h3, h6, h7, rfl⟩

end Sys2Proof.Proofs
end

section
/-! The record formatter, the packer and Parse (41_record_serializer.md): a record's bytes are the
little-endian form of Rec64 (R80), and Parse takes them apart again (R87). -/

namespace Sys2Proof.Proofs

open Sys2Proof.Machine

/-! ### Byte lists (00_scope.md R13) -/

theorem fromLE_append (xs ys : List Byte) :
    fromLE (xs ++ ys) = fromLE xs + 256 ^ xs.length * fromLE ys := by
  induction xs with
  | nil => simp [fromLE]
  | cons b bs ih =>
    simp only [List.cons_append, fromLE, ih, List.length_cons]
    ring

/-- The bytes of a number are the n bytes that read as it. -/
theorem leBytes_eq_of_fromLE (n v : Nat) (bs : List Byte) (hlen : bs.length = n)
    (hv : fromLE bs = v) : leBytes n v = bs := by
  rw [← hlen, ← hv, leBytes_fromLE]

/-- n bytes hold the number of a word of 8 n bits. -/
theorem fromLE_leBytes_toNat (n : Nat) (x : BitVec (8 * n)) :
    fromLE (leBytes n x.toNat) = x.toNat := by
  refine fromLE_leBytes n _ ?_
  have hwidth : 256 ^ n = 2 ^ (8 * n) := (pow_mul 2 8 n).symm
  exact hwidth ▸ x.isLt

/-- A concatenation's number; `BitVec.toNat_append` writes it with a shift and an or. -/
theorem toNat_append_eq_add {m n : Nat} (hi : BitVec m) (lo : BitVec n) :
    (hi ++ lo).toNat = lo.toNat + 2 ^ n * hi.toNat := by
  rw [BitVec.toNat_append, ← Nat.shiftLeft_add_eq_or_of_lt lo.isLt, Nat.shiftLeft_eq]
  ring

/-- A concatenation in a wider word: the two parts, each in its place, the low one first as in R80. -/
theorem setWidth_append_eq_or {m n : Nat} (w : Nat) (hi : BitVec m) (lo : BitVec n) :
    (hi ++ lo).setWidth w = lo.setWidth w ||| hi.setWidth w <<< n := by
  rw [BitVec.setWidth_append_eq_shiftLeft_setWidth_or, BitVec.or_comm]

/-! ### The record as numbers (R80) -/

theorem rec64_toNat (r : Record) : (rec64 r).toNat =
    r.attr.toNat + 2 ^ 8 * (r.reserved.toNat + 2 ^ 8 * (r.length.toNat + 2 ^ 16 * r.address.toNat)) := by
  simp only [rec64, toNat_append_eq_add]

theorem word0_eq (r : Record) : word0 r = r.length ++ r.reserved ++ r.attr := by
  apply BitVec.eq_of_toNat_eq
  rw [word0, BitVec.extractLsb'_toNat, rec64_toNat]
  simp only [toNat_append_eq_add]
  omega

theorem word1_eq (r : Record) : word1 r = r.address := by
  apply BitVec.eq_of_toNat_eq
  rw [word1, BitVec.extractLsb'_toNat, rec64_toNat]
  omega

/-- R80: Rec64 as shifts and ors, each concatenation of `rec64` being one shift and one or. -/
theorem rec64_eq_or (r : Record) :
    rec64 r = r.attr.setWidth 64 ||| r.reserved.setWidth 64 <<< 8 ||| r.length.setWidth 64 <<< 16
      ||| r.address.setWidth 64 <<< 32 := by
  rw [← BitVec.setWidth_eq (rec64 r), rec64]
  simp only [setWidth_append_eq_or, BitVec.shiftLeft_or_distrib, ← BitVec.shiftLeft_add,
    BitVec.or_assoc]

/-- Word0 as shifts and ors: a zero `reserved` leaves no trace in it. -/
theorem word0_eq_or (r : Record) :
    word0 r = r.attr.setWidth 32 ||| r.reserved.setWidth 32 <<< 8 ||| r.length.setWidth 32 <<< 16 := by
  rw [← BitVec.setWidth_eq (word0 r), word0_eq]
  simp only [setWidth_append_eq_or, BitVec.shiftLeft_or_distrib, ← BitVec.shiftLeft_add,
    BitVec.or_assoc]

/-! ### The record's bytes read as numbers (R80) -/

/-- The first four bytes of a formatted record. -/
def headBytes (r : Record) : List Byte := [r.attr, r.reserved] ++ leBytes 2 r.length.toNat

@[simp] theorem headBytes_length (r : Record) : (headBytes r).length = 4 := by simp [headBytes]

theorem formatRecord_eq (r : Record) :
    formatRecord r = headBytes r ++ leBytes 4 r.address.toNat := rfl

theorem fromLE_headBytes (r : Record) : fromLE (headBytes r) = (word0 r).toNat := by
  have hlen := fromLE_leBytes_toNat 2 r.length
  rw [headBytes, fromLE_append, hlen, word0_eq, toNat_append_eq_add, toNat_append_eq_add]
  simp only [fromLE, List.length_cons, List.length_nil]
  ring

/-- The idea of R80: a formatted record, read as a number, is Rec64. -/
theorem fromLE_formatRecord (r : Record) : fromLE (formatRecord r) = (rec64 r).toNat := by
  have hadr := fromLE_leBytes_toNat 4 r.address
  rw [formatRecord_eq, fromLE_append, hadr, fromLE_headBytes, word0_eq, headBytes_length,
    rec64_toNat]
  simp only [toNat_append_eq_add]
  ring

/-! ### Readback (10_state.md R25) -/

theorem readback_of_recordAt (word : Record → Word) (s : State) (r : Record)
    (h : recordAt s s.regs.recIndex.toNat = some r) : readback word s = word r := by
  rw [readback, h]

/-- Settles O3: both byte equalities from what the bytes read as (`leBytes_eq_of_fromLE`), the shifts
and ors from the concatenation's, and reserved = 0 from the closed form of the chain. -/
theorem formatRecordAsNumbers : Obligations.FormatRecordAsNumbers := by
  refine ⟨fun r => ⟨?_, ?_, rec64_eq_or r, word0_eq r, word1_eq r⟩, fun s r hr => ?_,
    fun a l ch r h hr => ?_⟩
  · exact (leBytes_eq_of_fromLE 8 _ _ (formatRecord_length r) (fromLE_formatRecord r)).symm
  · rw [formatRecord_eq, word1_eq,
      leBytes_eq_of_fromLE 4 _ _ (headBytes_length r) (fromLE_headBytes r)]
  · exact ⟨readback_of_recordAt word0 s r hr, readback_of_recordAt word1 s r hr⟩
  · obtain ⟨i, -, rfl⟩ := buildRef_mem a l ch r h hr
    have hzero : (segmentRecord a.toNat l.toNat i).reserved = 0 := rfl
    exact ⟨hzero, by simp [word0_eq_or, hzero]⟩

/-! ### Serialize and Parse (R81, R86) -/

@[simp] theorem serialize_nil : serialize [] = [] := rfl

@[simp] theorem serialize_cons (r : Record) (ch : List Record) :
    serialize (r :: ch) = formatRecord r ++ serialize ch := List.flatMap_cons

@[simp] theorem parse_nil : parse [] = some [] := rfl

/-- R86, one record: its 8 bytes are decoded and the rest is parsed. -/
theorem parse_eight (b0 b1 b2 b3 b4 b5 b6 b7 : Byte) (rest : List Byte) :
    parse (b0 :: b1 :: b2 :: b3 :: b4 :: b5 :: b6 :: b7 :: rest) =
      (parse rest).map (decRecord b0 b1 b2 b3 b4 b5 b6 b7 :: ·) := by
  rw [parse]
  cases parse rest <;> rfl

/-- The bytes of a record in front of a table are parsed back to it. -/
theorem parse_formatRecord_append (r : Record) (rest : List Byte) :
    parse (formatRecord r ++ rest) = (parse rest).map (r :: ·) := by
  obtain ⟨l0, l1, hlen⟩ : ∃ l0 l1, leBytes 2 r.length.toNat = [l0, l1] := ⟨_, _, rfl⟩
  obtain ⟨a0, a1, a2, a3, hadr⟩ : ∃ a0 a1 a2 a3, leBytes 4 r.address.toNat = [a0, a1, a2, a3] :=
    ⟨_, _, _, _, rfl⟩
  have hdec : decRecord r.attr r.reserved l0 l1 a0 a1 a2 a3 = r := by
    rw [decRecord, ← hlen, ← hadr, fromLE_leBytes_toNat 2 r.length, fromLE_leBytes_toNat 4 r.address]
    simp
  calc parse (formatRecord r ++ rest)
    _ = parse (r.attr :: r.reserved :: l0 :: l1 :: a0 :: a1 :: a2 :: a3 :: rest) := by
      simp [formatRecord, hlen, hadr]
    _ = (parse rest).map (r :: ·) := by rw [parse_eight, hdec]

/-- R87. -/
theorem parse_serialize (ch : List Record) : parse (serialize ch) = some ch := by
  induction ch with
  | nil => rfl
  | cons r ch ih => simp [parse_formatRecord_append, ih]

theorem serialize_injective : Function.Injective serialize := by
  intro ch d h
  apply Option.some.inj
  rw [← parse_serialize ch, h, parse_serialize]

/-- Settles O5: the round trip for every chain, by induction on the chain (`parse_serialize`), gives all
three clauses. -/
theorem parseOfSerialize : Obligations.ParseOfSerialize :=
  ⟨parse_serialize, fun _ _ ch _ => parse_serialize ch, fun _ _ h => serialize_injective h⟩

/-- Settles O4, by induction on the chain. -/
theorem serializedLength : Obligations.SerializedLength := by
  intro ch
  induction ch with
  | nil => rfl
  | cons r ch ih =>
    simp only [serialize_cons, List.length_append, formatRecord_length, ih, List.length_cons]
    ring

end Sys2Proof.Proofs
end

section
/-! Command dispatch seen from one command (42_host_commands.md R91, 60_exceptions.md R111), the STATUS word
of a cleared status, and the two commands without a check: NOP (R92) and DISCARD (R96). -/

namespace Sys2Proof.Proofs

open Sys2Proof.Machine

/-! ### Command dispatch -/

/-- R91. -/
theorem exec_idle (i : Instr) (s : State) (h : s.engine.phase = .idle) :
    exec i s = .next (bodyOf i (clearStatus s)).state := by
  rw [exec_eq_issue, issue_idle _ s h]

/-- R111. -/
theorem exec_busy (i : Instr) (s : State) (h : s.engine.phase = .ser) :
    exec i s = .next (dropCommand s) := by
  rw [exec_eq_issue, issue_busy _ s h]

theorem exec_nop_idle (s : State) (h : s.engine.phase = .idle) :
    exec .nop s = .next (clearStatus s) :=
  exec_idle .nop s h

/-- Idle or BUSY: NOP's body is `done`, and dispatch itself touches the status only. -/
theorem exec_nop_frame (s t : State) (h : exec .nop s = .next t) :
    t.engine = s.engine ∧ t.chain = s.chain := by
  rw [exec_eq_issue] at h
  obtain ⟨-, rfl⟩ | ⟨-, rfl⟩ := issue_cases _ s t h
  · exact ⟨dropCommand_engine s, dropCommand_chain s⟩
  · exact ⟨clearStatus_engine s, clearStatus_chain s⟩

theorem exec_discard_idle (s : State) (h : s.engine.phase = .idle) :
    exec .discard s = .next ((clearStatus s).withChain ChainState.empty) :=
  exec_idle .discard s h

theorem withChain_self (s : State) : s.withChain s.chain = s := rfl

/-! ### BUSY and the STATUS word (30_encoding.md R49) -/

theorem busy_eq_false_iff (s : State) : busy s = false ↔ s.engine.phase = .idle := by
  cases h : s.engine.phase <;> simp [busy, h]

/-- Appending one bit on the right is `BitVec.concat`, so the library's lemmas on `concat` read STATUS from
bit 0 upwards. -/
theorem statusWord_bit_busy (s : State) : (statusWord s).getLsbD 0 = busy s :=
  BitVec.getLsbD_concat_zero

theorem statusWord_bit_chain (s : State) : (statusWord s).getLsbD 1 = s.chain.valid :=
  BitVec.getLsbD_concat_succ.trans BitVec.getLsbD_concat_zero

/-- While idle with a clear status only CHAIN is left to read. -/
theorem statusWord_of_clear (s : State) (hidle : s.engine.phase = .idle)
    (hclear : s.status = Status.clear) :
    statusWord s = if s.chain.valid then 0x00000002 else 0x00000000 := by
  have hbusy : busy s = false := (busy_eq_false_iff s).2 hidle
  cases hv : s.chain.valid <;> simp [statusWord, hbusy, hclear, hv, Status.clear, ErrCode.code]

/-! ### NOP and DISCARD -/

/-- Settles O17: dispatch's two outcomes around the empty body; 0x52 reads BUSY = 0 and CHAIN = 1. -/
theorem nopClearsStatusOnly : Obligations.NopClearsStatusOnly := by
  refine ⟨rfl, fun s => ⟨exec_nop_idle s, exec_busy .nop s, ?frame, ?example_0x52⟩⟩
  case frame =>
    intro t h
    obtain ⟨hengine, hchain⟩ := exec_nop_frame s t h
    exact ⟨by simp only [busy, hengine], by rw [hchain]⟩
  case example_0x52 =>
    intro hword
    have hidle : s.engine.phase = .idle := by
      rw [← busy_eq_false_iff, ← statusWord_bit_busy, hword]
      rfl
    have hvalid : s.chain.valid = true := by
      rw [← statusWord_bit_chain, hword]
      rfl
    refine ⟨clearStatus s, exec_nop_idle s hidle, ?_⟩
    rw [statusWord_of_clear (clearStatus s) hidle rfl, clearStatus_chain, if_pos hvalid]

/-- Settles O28: dispatch's two outcomes around the emptying body; an empty chain is emptied to itself. -/
theorem discardEmptiesTheChain : Obligations.DiscardEmptiesTheChain := by
  refine ⟨rfl, fun s => ⟨fun hidle => ?idle, exec_busy .discard s⟩⟩
  case idle =>
    refine ⟨_, exec_discard_idle s hidle, rfl, rfl, rfl, rfl, statusWord_of_clear _ hidle rfl, ?_⟩
    intro hempty
    calc (clearStatus s).withChain ChainState.empty
      _ = (clearStatus s).withChain (clearStatus s).chain := by rw [clearStatus_chain, hempty]; rfl
      _ = clearStatus s := withChain_self _

end Sys2Proof.Proofs
end

section
/-! Which BUILD, SERIALIZE and BUILD_SERIALIZE are rejected, and what a rejected one leaves
(60_exceptions.md R101 to R106, R110). -/

namespace Sys2Proof.Proofs

open Sys2Proof.Machine

/-! ### A check that fails, as an equation of the command's body (42_host_commands.md R93 to R95) -/

theorem buildBody_zeroLen (s : State) (hlen : s.regs.srcLen.toNat = 0) :
    buildBody s = raiseErr .zeroLen (s.withChain ChainState.empty) := by
  simp [buildBody, hlen]

theorem buildBody_srcOvf (s : State) (hlen : s.regs.srcLen.toNat ≠ 0)
    (hovf : Config.addrSpace < s.regs.srcAddr.toNat + s.regs.srcLen.toNat) :
    buildBody s = raiseErr .srcOvf (s.withChain ChainState.empty) := by
  simp [buildBody, hlen, hovf]

theorem buildBody_accepted (s : State) (hlen : s.regs.srcLen.toNat ≠ 0)
    (hfits : s.regs.srcAddr.toNat + s.regs.srcLen.toNat ≤ Config.addrSpace) :
    buildBody s = .done (s.withChain (latchChain s.regs.srcAddr s.regs.srcLen)) := by
  simp [buildBody, hlen, Nat.not_lt.mpr hfits, State.withChain]

theorem buildSerializeBody_of_raised (s t : State) (h : buildBody s = .raised t) :
    buildSerializeBody s = .raised t := by
  simp [buildSerializeBody, h]

theorem serializeBody_noChain (s : State) (hchain : s.chain.valid = false) :
    serializeBody s = raiseErr .noChain s := by
  simp [serializeBody, hchain]

theorem serializeBody_tblAlign (s : State) (hchain : s.chain.valid = true)
    (halign : s.regs.tblBase.toNat % 8 ≠ 0) : serializeBody s = raiseErr .tblAlign s := by
  simp [serializeBody, hchain, halign]

theorem serializeBody_tblSmall (s : State) (hchain : s.chain.valid = true)
    (halign : s.regs.tblBase.toNat % 8 = 0)
    (hsmall : s.regs.tblCap.toNat < Config.recSize * s.chain.count.toNat) :
    serializeBody s = raiseErr .tblSmall s := by
  simp [serializeBody, hchain, halign, hsmall]

theorem serializeBody_tblOvf (s : State) (hchain : s.chain.valid = true)
    (halign : s.regs.tblBase.toNat % 8 = 0)
    (hcap : Config.recSize * s.chain.count.toNat ≤ s.regs.tblCap.toNat)
    (hovf : Config.addrSpace < s.regs.tblBase.toNat + Config.recSize * s.chain.count.toNat) :
    serializeBody s = raiseErr .tblOvf s := by
  simp [serializeBody, hchain, halign, Nat.not_lt.mpr hcap, hovf]

/-! ### A rejected command -/

/-- R110 after the clearing of R91: a SERIALIZE that raises changes the status only. -/
theorem exec_serialize_rejected (s : State) (c : ErrCode) (hidle : s.engine.phase = .idle)
    (hbody : serializeBody (clearStatus s) = raiseErr c (clearStatus s)) :
    exec .serialize s = .next (s.withStatus ⟨false, false, c⟩) := by
  rw [exec_idle .serialize s hidle, bodyOf, hbody]
  rfl

/-- R95, R110: BUILD has discarded the old chain when it raises, and BUILD_SERIALIZE ends where BUILD
does. -/
theorem exec_build_rejected (s : State) (c : ErrCode) (hidle : s.engine.phase = .idle)
    (hbody : buildBody (clearStatus s) =
      raiseErr c ((clearStatus s).withChain ChainState.empty)) :
    exec .build s = .next ((s.withChain ChainState.empty).withStatus ⟨false, false, c⟩) ∧
    exec .buildSerialize s =
      .next ((s.withChain ChainState.empty).withStatus ⟨false, false, c⟩) := by
  constructor
  · rw [exec_idle .build s hidle, bodyOf, hbody]
    rfl
  · rw [exec_idle .buildSerialize s hidle, bodyOf, buildSerializeBody_of_raised _ _ hbody]
    rfl

/-- 10_state.md R20. -/
theorem heldChain_of_not_valid (s : State) (h : s.chain.valid = false) : heldChain s = [] := by
  simp [heldChain, h]

/-- 42_host_commands.md R93: a BUILD that ends with an error ends with no chain, and no BUILD starts the
engine. -/
theorem exec_build_failed (s t : State) (hidle : s.engine.phase = .idle)
    (h : exec .build s = .next t) (herr : t.status.err ≠ .none) :
    t.engine.phase = .idle ∧ t.chain.valid = false := by
  rw [exec_idle .build s hidle] at h
  obtain rfl := Host.Outcome.next.inj h
  rw [bodyOf] at herr ⊢
  obtain ⟨-, hbody⟩ | ⟨-, -, hbody⟩ | ⟨-, -, hbody⟩ := buildBody_cases (clearStatus s)
  · rw [hbody]; exact ⟨hidle, rfl⟩
  · rw [hbody]; exact ⟨hidle, rfl⟩
  · rw [hbody] at herr; exact absurd rfl herr

/-! ### The six errors, one for each failed check -/

/-- Settles O19: BUILD's first check fails, for both commands. -/
theorem zeroLengthRejected : Obligations.ZeroLengthRejected := by
  intro s hidle hlen
  obtain ⟨hbuild, hboth⟩ := exec_build_rejected s .zeroLen hidle
    (buildBody_zeroLen (clearStatus s) (by simp [hlen]))
  exact ⟨_, hbuild, hboth, rfl, rfl, heldChain_of_not_valid _ rfl, rfl, hidle⟩

/-- Settles O20: BUILD's second check, which only a sum past 2^32 fails. -/
theorem sourceOverflowRejected : Obligations.SourceOverflowRejected := by
  intro s hidle hlen
  have hne : s.regs.srcLen.toNat ≠ 0 := by omega
  refine ⟨fun hovf => ?past, by omega, fun htop => ?top⟩
  case past =>
    obtain ⟨hbuild, hboth⟩ := exec_build_rejected s .srcOvf hidle
      (buildBody_srcOvf (clearStatus s) hne hovf)
    exact ⟨_, hbuild, hboth, rfl, rfl, heldChain_of_not_valid _ rfl⟩
  case top =>
    have hbuild := exec_idle .build s hidle
    rw [bodyOf, buildBody_accepted (clearStatus s) hne htop.le] at hbuild
    exact ⟨_, hbuild, rfl, rfl⟩

/-- Settles O21: SERIALIZE's first check, and the three ways R103 names to fail it. -/
theorem noChainRejected : Obligations.NoChainRejected := by
  refine ⟨fun s hidle hchain => ?rejected, rfl, serialize_nil, fun p => ⟨rfl, rfl⟩,
    fun s t hidle h => ?discarded, exec_build_failed⟩
  case rejected =>
    exact exec_serialize_rejected s .noChain hidle (serializeBody_noChain (clearStatus s) hchain)
  case discarded =>
    rw [exec_discard_idle s hidle] at h
    obtain rfl := Host.Outcome.next.inj h
    exact ⟨hidle, rfl⟩

/-- Settles O22: SERIALIZE's second check fails. -/
theorem misalignedTableRejected : Obligations.MisalignedTableRejected :=
  ⟨rfl, fun s hidle hchain halign => exec_serialize_rejected s .tblAlign hidle
    (serializeBody_tblAlign (clearStatus s) hchain halign)⟩

/-- Settles O23: SERIALIZE's third check fails; REC_COUNT is CH_COUNT in every state. -/
theorem smallTableRejected : Obligations.SmallTableRejected :=
  ⟨rfl, fun s hidle hchain halign hsmall => ⟨exec_serialize_rejected s .tblSmall hidle
    (serializeBody_tblSmall (clearStatus s) hchain halign hsmall), rfl⟩⟩

/-- Settles O24: SERIALIZE's last check fails. -/
theorem tableOverflowRejected : Obligations.TableOverflowRejected :=
  ⟨rfl, fun s hidle hchain halign hcap hovf => exec_serialize_rejected s .tblOvf hidle
    (serializeBody_tblOvf (clearStatus s) hchain halign hcap hovf)⟩

end Sys2Proof.Proofs
end

section
/-! What any word written to CMD does (42_host_commands.md R91): an illegal one fails (60_exceptions.md
R107), while BUSY it is dropped (R111), and nothing else but reset clears OVR (R112). -/

namespace Sys2Proof.Proofs

open Sys2Proof.Machine

/-! ### Illegal words (30_encoding.md R52) -/

theorem decode_of_rsvd (w : Word) (h : rsvdField w ≠ 0#28) : decode w = .error .rsvdNotZero :=
  if_neg h

theorem decode_of_reservedOp (w : Word) (hrsvd : rsvdField w = 0#28) (hop : 5 ≤ (opField w).toNat) :
    decode w = .error (.reservedOp (opField w)) := by
  rw [decode, if_pos hrsvd]
  split
  case h_6 => rfl
  all_goals omega

/-- R52: such a word is no command. -/
theorem decode_illegal (w : Word) (h : rsvdField w ≠ 0#28 ∨ 5 ≤ (opField w).toNat) :
    ∃ e, decode w = .error e := by
  by_cases hrsvd : rsvdField w = 0#28
  · exact ⟨_, decode_of_reservedOp w hrsvd (h.resolve_left (not_not_intro hrsvd))⟩
  · exact ⟨_, decode_of_rsvd w hrsvd⟩

theorem commandWrite_of_error (w : Word) (e : BadWord) (s : State) (h : decode w = .error e) :
    commandWrite w s = illegalCommand s := by
  rw [commandWrite, h]

theorem illegalCommand_idle (s : State) (h : s.engine.phase = .idle) :
    illegalCommand s = .next (s.withStatus ⟨false, false, .badCmd⟩) :=
  issue_idle (raiseErr .badCmd) s h

/-- Settles O29: the word does not decode, so dispatch runs the body that only raises ERR_BAD_CMD. -/
theorem illegalWordFails : Obligations.IllegalWordFails := by
  refine ⟨rfl, fun s v rest hidle hinput hillegal => ?_⟩
  obtain ⟨e, he⟩ := decode_illegal v hillegal
  rw [step_wrInput s .cmd v rest hinput, writeReg_cmd, commandWrite_of_error v e _ he,
    illegalCommand_idle (s.withInputs rest) hidle]

/-! ### What a write to CMD leaves in DONE and OVR -/

theorem buildBody_status (s : State) :
    ∃ e, (buildBody s).state.status = { s.status with err := e } := by
  obtain ⟨-, h⟩ | ⟨-, -, h⟩ | ⟨-, -, h⟩ := buildBody_cases s
  all_goals rw [h]; exact ⟨_, rfl⟩

theorem serializeBody_status (s : State) :
    ∃ e, (serializeBody s).state.status = { s.status with err := e } := by
  obtain ⟨-, h⟩ | ⟨-, -, h⟩ | ⟨-, -, -, h⟩ | ⟨-, -, -, -, h⟩ | ⟨-, -, -, -, h⟩ :=
    serializeBody_cases s
  all_goals rw [h]; exact ⟨_, rfl⟩

theorem buildSerializeBody_status (s : State) :
    ∃ e, (buildSerializeBody s).state.status = { s.status with err := e } := by
  obtain ⟨e, hbuilt⟩ := buildBody_status s
  obtain ⟨t, hb, hbs⟩ | ⟨t, hb, hbs⟩ := buildSerializeBody_cases s
  · rw [hb] at hbuilt
    rw [hbs]
    exact ⟨e, hbuilt⟩
  · obtain ⟨e', hserialized⟩ := serializeBody_status t
    have hbuilt : t.status = { s.status with err := e } := by rw [hb] at hbuilt; exact hbuilt
    rw [hbs, hserialized, hbuilt]
    exact ⟨e', rfl⟩

/-- A command's body writes nothing of the status but ERR. -/
theorem bodyOf_status (i : Instr) (s : State) :
    ∃ e, (bodyOf i s).state.status = { s.status with err := e } := by
  cases i with
  | nop => exact ⟨_, rfl⟩
  | build => exact buildBody_status s
  | serialize => exact serializeBody_status s
  | buildSerialize => exact buildSerializeBody_status s
  | discard => exact ⟨_, rfl⟩

/-- R111, for every word. -/
theorem commandWrite_busy (w : Word) (s : State) (h : s.engine.phase = .ser) :
    commandWrite w s = .next (dropCommand s) := by
  obtain ⟨body, hbody, -⟩ := commandWrite_issue w s
  rw [hbody, issue_busy body s h]

/-- R91, for every word: what is accepted leaves DONE and OVR clear. -/
theorem commandWrite_idle (w : Word) (s : State) (h : s.engine.phase = .idle) :
    ∃ t e, commandWrite w s = .next t ∧ t.status = ⟨false, false, e⟩ := by
  obtain ⟨body, hbody, hkind⟩ := commandWrite_issue w s
  rw [hbody, issue_idle body s h]
  obtain ⟨i, rfl⟩ | rfl := hkind
  · obtain ⟨e, he⟩ := bodyOf_status i (clearStatus s)
    exact ⟨_, e, rfl, he⟩
  · exact ⟨_, .badCmd, rfl, rfl⟩

/-! ### What a step does to the first of the instances -/

/-- A step that changes `s.block` is its engine's turn, its reset or a store to its window. -/
theorem step_block_cases (s t : State) (h : step s = .next t) :
    t.block = s.block ∨
    ∃ c : Touch, c.arrives 0 s ∧ c.run (s.withInputs s.inputs.tail) = .next t := by
  obtain ⟨k, c, u, hk, harr, hrun, rfl⟩ | ⟨a, z, v, rest, -, -, -, rfl⟩ | ⟨v, n, rfl⟩ :=
    step_cases s t h
  · cases k with
    | zero => exact .inr ⟨c, harr, hrun⟩
    | succ k =>
      obtain ⟨hothers, hplatform, -, -⟩ := c.run_frame _ u hrun
      obtain ⟨-, -, -, hframe⟩ :=
        onInstance_frame (k + 1) (s.withInputs s.inputs.tail) u hk hothers hplatform
      exact .inl (Option.some.inj (hframe 0 k.succ_ne_zero.symm))
  · exact .inl rfl
  · exact .inl rfl

/-- 30_encoding.md R47: no two offsets name the same register, except the unmapped ones. -/
theorem regOffset_regAt (off : Nat) : regAt off = .unmapped ∨ regOffset (regAt off) = off := by
  unfold regAt
  split <;> simp [regOffset]

/-- A store that reaches the window of `s.block` at CMD is the 32-bit store at offset 0x10. -/
theorem storeArrives_cmd (s : State) (a : Word) (v : DWord) (harr : (Touch.store a v).arrives 0 s)
    (hcmd : regAt (a.toNat - regBase s.platform) = .cmd) : storeArrives s 0 0x10 := by
  obtain ⟨⟨rest, hinput⟩, hwindow, haccess⟩ := harr
  obtain ⟨-, htouch⟩ := windowOf_touches s.platform a.toNat 4 0 hwindow
  obtain ⟨-, hbase, -, -⟩ := regAccess_inside s.platform a .word htouch haccess
  have hoff : 0x10 = a.toNat - regBase s.platform := by
    simpa [hcmd, regOffset] using regOffset_regAt (a.toNat - regBase s.platform)
  exact ⟨a, v, rest, hinput, by simp only [Platform.focus_zero]; omega⟩

theorem engineStep_ovr (s t : State) (h : engineStep s = .next t) : t.status.ovr = s.status.ovr := by
  obtain rfl | ⟨a, r, -, rfl⟩ := engineStep_cases s t h <;> simp

/-- R111: a register write that clears OVR is an accepted command. -/
theorem writeReg_clears_ovr (r : Reg) (v : Word) (s t : State) (h : writeReg r v s = .next t)
    (hset : s.status.ovr = true) (hclear : t.status.ovr = false) :
    r = .cmd ∧ s.engine.phase = .idle := by
  obtain ⟨hr, hw⟩ | ⟨-, hw⟩ := writeReg_cases r v s
  · refine ⟨hr, ?_⟩
    rw [hw] at h
    cases hphase : s.engine.phase with
    | idle => rfl
    | ser =>
      rw [commandWrite_busy v s hphase] at h
      obtain rfl := Host.Outcome.next.inj h
      cases hclear
  · rw [hw] at h
    obtain rfl := Host.Outcome.next.inj h
    rw [State.withRegs_status, hset] at hclear
    cases hclear

/-- R112: only a reset and an accepted command clear OVR. -/
theorem step_clears_ovr (s t : State) (hset : s.status.ovr = true) (h : step s = .next t)
    (hclear : t.status.ovr = false) :
    resetArrives s 0 ∨ (s.engine.phase = .idle ∧ storeArrives s 0 0x10) := by
  obtain hblock | ⟨c, harr, hrun⟩ := step_block_cases s t h
  · have hsame : t.status = s.status := congrArg Block.status hblock
    rw [hsame, hset] at hclear
    cases hclear
  · cases c with
    | engine =>
      have hsame : t.status.ovr = s.status.ovr := engineStep_ovr (s.withInputs s.inputs.tail) t hrun
      rw [hsame, hset] at hclear
      cases hclear
    | reset => exact .inl harr
    | store a v =>
      obtain ⟨hcmd, hidle⟩ := writeReg_clears_ovr _ _ _ t hrun hset hclear
      exact .inr ⟨hidle, storeArrives_cmd s a v harr hcmd⟩

/-- Settles O30: dispatch's two outcomes for any word, and every kind of step looked at for what it does
to OVR. -/
theorem busyDropsTheCommand : Obligations.BusyDropsTheCommand := by
  refine ⟨fun s v rest hbusy hinput => ?dropped, fun s v rest hidle hinput => ?accepted,
    step_clears_ovr⟩
  case dropped =>
    rw [step_wrInput s .cmd v rest hinput, writeReg_cmd, commandWrite_busy v (s.withInputs rest) hbusy]
    rfl
  case accepted =>
    obtain ⟨t, e, hnext, hstatus⟩ := commandWrite_idle v (s.withInputs rest) hidle
    rw [step_wrInput s .cmd v rest hinput, writeReg_cmd]
    exact ⟨t, hnext, by rw [hstatus]⟩

end Sys2Proof.Proofs
end

section
/-! The chain a block holds (10_state.md R20, R21): it is there when the chain state describes a legal
request, has CH_COUNT records, and is what BUILD latches. Its table record by record
(41_record_serializer.md R81, R88). -/

namespace Sys2Proof.Proofs

open Sys2Proof.Machine

/-! ### The held chain -/

theorem heldChain_congr (s t : State) (h : t.chain = s.chain) : heldChain t = heldChain s := by
  simp only [heldChain, h]

theorem table_congr (s t : State) (h : t.chain = s.chain) : table t = table s := by
  simp only [table, heldChain_congr s t h]

/-- 10_state.md R20, R21: a latched chain is `BuildRef` of the latched request. -/
theorem buildRef_heldChain (s : State) (hok : ChainOk s.chain) (hvalid : s.chain.valid = true) :
    buildRef s.chain.addr s.chain.len = some (heldChain s) := by
  obtain ⟨-, hfits, -⟩ := hok.1 hvalid
  have h := (buildRef_eq_some_iff s.chain.addr s.chain.len _).mpr ⟨.inr hfits, rfl⟩
  simp [heldChain, hvalid, h]

/-- 10_state.md R20: CH_COUNT is the number of records held; with no chain both are 0. -/
theorem heldChain_length (s : State) (hok : ChainOk s.chain) :
    (heldChain s).length = s.chain.count.toNat := by
  cases hvalid : s.chain.valid with
  | true =>
    obtain ⟨-, -, hcount, -⟩ := hok.1 hvalid
    rw [buildRef_length _ _ _ (buildRef_heldChain s hok hvalid), hcount]
  | false =>
    rw [heldChain_of_not_valid s hvalid, hok.2 hvalid]
    rfl

theorem table_length (s : State) (hok : ChainOk s.chain) :
    (table s).length = Config.recSize * s.chain.count.toNat := by
  rw [table, serializedLength, heldChain_length s hok, Config.recSize]

/-- 10_state.md R25: an index has a record exactly as long as the held chain goes. -/
theorem exists_recordAt (s : State) (i : Nat) (hok : ChainOk s.chain) (hvalid : s.chain.valid = true)
    (hi : i < s.chain.count.toNat) : ∃ r, recordAt s i = some r := by
  have hlen : i < (heldChain s).length := by rwa [heldChain_length s hok]
  exact ⟨(heldChain s)[i], by simp [recordAt, hvalid, hi, hlen]⟩

theorem recordAt_eq_none (s : State) (i : Nat)
    (h : s.chain.valid = false ∨ s.chain.count.toNat ≤ i) : recordAt s i = none := by
  refine if_neg fun hc => ?_
  obtain hvalid | hcount := h
  · rw [hvalid] at hc; exact Bool.false_ne_true hc.1
  · exact Nat.not_lt.mpr hcount hc.2

/-- A held record is one of a built chain, in every state. -/
theorem recordAt_buildRef (s : State) (i : Nat) (r : Record) (h : recordAt s i = some r) :
    ∃ ch, buildRef s.chain.addr s.chain.len = some ch ∧ ch[i]? = some r := by
  obtain ⟨hvalid, -, hr⟩ := recordAt_lt s i r h
  rw [heldChain, if_pos hvalid] at hr
  cases hb : buildRef s.chain.addr s.chain.len with
  | some ch => rw [hb] at hr; exact ⟨ch, rfl, hr⟩
  | none => rw [hb] at hr; simp at hr

/-- 10_state.md R23: no byte count of a table wraps, a chain of 32-bit length has too few records. -/
theorem recordAt_bytes_lt (s : State) (i : Nat) (r : Record) (h : recordAt s i = some r) :
    Config.recSize * (i + 1) < Config.addrSpace := by
  obtain ⟨ch, hb, hr⟩ := recordAt_buildRef s i r h
  have hstart := buildRef_segment_starts _ _ ch i r hb hr
  have hlen := s.chain.len.isLt
  simp only [Config.maxSeg, Config.recSize, Config.addrSpace] at *
  omega

/-- 42_host_commands.md R93: what BUILD latches for a legal request describes it. -/
theorem latchChain_counts (a l : Word) :
    (latchChain a l).count.toNat = ceilDiv l.toNat Config.maxSeg ∧
    (latchChain a l).last.toNat =
      l.toNat - Config.maxSeg * (ceilDiv l.toNat Config.maxSeg - 1) := by
  have hl := l.isLt
  simp only [latchChain, BitVec.toNat_ofNat, ceilDiv, Config.maxSeg]
  omega

theorem latchChain_ok (a l : Word) (hl : 1 ≤ l.toNat) (hfits : a.toNat + l.toNat ≤ Config.addrSpace) :
    ChainOk (latchChain a l) := by
  obtain ⟨hcount, hlast⟩ := latchChain_counts a l
  exact ⟨fun _ => ⟨hl, hfits, hcount, by rw [hlast, hcount]; rfl⟩, fun h => Bool.noConfusion h⟩

/-- 10_state.md R20: a chain that is built has a record. -/
theorem chainOk_count_pos (c : ChainState) (hok : ChainOk c) (hvalid : c.valid = true) :
    0 < c.count.toNat := by
  obtain ⟨hlen, -, hcount, -⟩ := hok.1 hvalid
  rw [hcount]
  exact one_le_ceilDiv_maxSeg _ hlen

/-! ### The table record by record -/

/-- 41_record_serializer.md R81: the table around record `i`. -/
theorem serialize_split (ch : List Record) (i : Nat) (r : Record) (hr : ch[i]? = some r) :
    serialize ch = serialize (ch.take i) ++ (formatRecord r ++ serialize (ch.drop (i + 1))) := by
  obtain ⟨hi, rfl⟩ := List.getElem?_eq_some_iff.mp hr
  calc serialize ch
    _ = serialize (ch.take i ++ ch.drop i) := by rw [List.take_append_drop]
    _ = serialize (ch.take i) ++ serialize (ch.drop i) := List.flatMap_append
    _ = _ := by rw [List.drop_eq_getElem_cons hi, serialize_cons]

theorem serialize_take_length (ch : List Record) (i : Nat) (r : Record) (hr : ch[i]? = some r) :
    (serialize (ch.take i)).length = Config.recSize * i := by
  have hi := (List.getElem?_eq_some_iff.mp hr).1
  rw [serializedLength, List.length_take_of_le hi.le, Config.recSize]

/-- The records before record `i` fill `8 * i` bytes, and its own come next. -/
theorem serialize_take_succ (ch : List Record) (i : Nat) (r : Record) (hr : ch[i]? = some r) :
    (serialize ch).take (Config.recSize * (i + 1)) =
      (serialize ch).take (Config.recSize * i) ++ formatRecord r := by
  have hlen := serialize_take_length ch i r hr
  have hsize : (formatRecord r).length = Config.recSize := formatRecord_length r
  rw [serialize_split ch i r hr, List.take_left' hlen, Nat.mul_succ, ← hlen,
    List.take_length_add_append, List.take_left' hsize]

theorem serialize_record_byte (ch : List Record) (i k : Nat) (r : Record) (hr : ch[i]? = some r)
    (hk : k < Config.recSize) :
    (serialize ch)[Config.recSize * i + k]? = (formatRecord r)[k]? := by
  have hsize : (formatRecord r).length = Config.recSize := formatRecord_length r
  rw [serialize_split ch i r hr, ← serialize_take_length ch i r hr,
    List.getElem?_append_right (Nat.le_add_right _ _), Nat.add_sub_cancel_left,
    List.getElem?_append_left (hsize ▸ hk)]

end Sys2Proof.Proofs
end

section
/-! What each command leaves (42_host_commands.md R91 to R96): the frame of all five, BUILD and SERIALIZE
with every check passed, and which error a failed check reports (60_exceptions.md R109, R110). -/

namespace Sys2Proof.Proofs

open Sys2Proof.Machine

/-! ### BUILD and SERIALIZE field by field -/

theorem buildBody_frame (s : State) :
    (buildBody s).state.regs = s.regs ∧ (buildBody s).state.engine = s.engine := by
  obtain ⟨-, h⟩ | ⟨-, -, h⟩ | ⟨-, -, h⟩ := buildBody_cases s
  all_goals rw [h]; exact ⟨rfl, rfl⟩

theorem serializeBody_frame (s : State) :
    (serializeBody s).state.regs = s.regs ∧ (serializeBody s).state.chain = s.chain := by
  obtain ⟨-, h⟩ | ⟨-, -, h⟩ | ⟨-, -, -, h⟩ | ⟨-, -, -, -, h⟩ | ⟨-, -, -, -, h⟩ :=
    serializeBody_cases s
  all_goals rw [h]; exact ⟨rfl, rfl⟩

/-- 60_exceptions.md R109: SERIALIZE's checks in their order. -/
theorem serializeBody_err (s : State) (hclear : s.status.err = .none) :
    (serializeBody s).state.status.err =
      if s.chain.valid = false then .noChain
      else if s.regs.tblBase.toNat % 8 ≠ 0 then .tblAlign
      else if s.regs.tblCap.toNat < Config.recSize * s.chain.count.toNat then .tblSmall
      else if Config.addrSpace < s.regs.tblBase.toNat + Config.recSize * s.chain.count.toNat then .tblOvf
      else .none := by
  obtain ⟨hv, h⟩ | ⟨hv, h8, h⟩ | ⟨hv, h8, hcap, h⟩ | ⟨hv, h8, hcap, hovf, h⟩ |
    ⟨hv, h8, hcap, hfits, h⟩ := serializeBody_cases s
  · simp [h, hv]
  · simp [h, hv, h8]
  · simp [h, hv, h8, hcap]
  · simp [h, hv, h8, Nat.not_lt.mpr hcap, hovf]
  · simp [h, hv, h8, Nat.not_lt.mpr hcap, Nat.not_lt.mpr hfits, hclear]

/-- 42_host_commands.md R93: a BUILD that fails leaves no chain, one that does not the request's. -/
theorem buildBody_chain (s : State) (hclear : s.status.err = .none) :
    (buildBody s).state.chain =
      if (buildBody s).state.status.err = .none then latchChain s.regs.srcAddr s.regs.srcLen
      else ChainState.empty := by
  obtain ⟨-, h⟩ | ⟨-, -, h⟩ | ⟨-, -, h⟩ := buildBody_cases s
  · simp [h]
  · simp [h]
  · simp [h, hclear]

/-- 60_exceptions.md R110: a SERIALIZE that fails does not start the engine. -/
theorem serializeBody_engine_of_err (s : State) (herr : (serializeBody s).state.status.err ≠ .none)
    (hclear : s.status.err = .none) : (serializeBody s).state.engine = s.engine := by
  obtain ⟨-, h⟩ | ⟨-, -, h⟩ | ⟨-, -, -, h⟩ | ⟨-, -, -, -, h⟩ | ⟨-, -, -, -, h⟩ :=
    serializeBody_cases s
  case inr.inr.inr.inr => rw [h] at herr; exact absurd hclear herr
  all_goals rw [h]; rfl

/-- 42_host_commands.md R95: the first half of BUILD_SERIALIZE decides what its second half is. -/
theorem buildSerializeBody_eq (s : State) (hclear : s.status.err = .none) :
    buildSerializeBody s =
      if (buildBody s).state.status.err = .none then serializeBody (buildBody s).state
      else buildBody s := by
  obtain ⟨-, h⟩ | ⟨-, -, h⟩ | ⟨-, -, h⟩ := buildBody_cases s
  · simp [buildSerializeBody, h, raiseErr]
  · simp [buildSerializeBody, h, raiseErr]
  · simp [buildSerializeBody, h, hclear]

/-- 60_exceptions.md R109: BUILD's checks in their order, then SERIALIZE's with the chain just built. -/
theorem buildSerializeBody_err (s : State) (hclear : s.status.err = .none) :
    (buildSerializeBody s).state.status.err =
      if s.regs.srcLen.toNat = 0 then .zeroLen
      else if Config.addrSpace < s.regs.srcAddr.toNat + s.regs.srcLen.toNat then .srcOvf
      else (serializeBody
        (s.withChain (latchChain s.regs.srcAddr s.regs.srcLen))).state.status.err := by
  rw [buildSerializeBody_eq s hclear]
  obtain ⟨h0, h⟩ | ⟨h0, hovf, h⟩ | ⟨h0, hfits, h⟩ := buildBody_cases s
  · simp [h, h0]
  · simp [h, h0, hovf]
  · simp [h, h0, Nat.not_lt.mpr hfits, hclear]

theorem serializeBody_accepted (s : State) (hvalid : s.chain.valid = true)
    (halign : s.regs.tblBase.toNat % 8 = 0)
    (hcap : Config.recSize * s.chain.count.toNat ≤ s.regs.tblCap.toNat)
    (hfits : s.regs.tblBase.toNat + Config.recSize * s.chain.count.toNat ≤ Config.addrSpace) :
    serializeBody s = .done (s.withEngine ⟨.ser, 0, s.regs.tblBase, 0⟩) := by
  simp [serializeBody, hvalid, halign, Nat.not_lt.mpr hcap, Nat.not_lt.mpr hfits]

/-! ### The frame -/

/-- No command's body writes a configuration register. -/
theorem bodyOf_regs (i : Instr) (s : State) : (bodyOf i s).state.regs = s.regs := by
  cases i with
  | nop => rfl
  | build => exact (buildBody_frame s).1
  | serialize => exact (serializeBody_frame s).1
  | buildSerialize =>
    obtain ⟨t, hb, hbs⟩ | ⟨t, hb, hbs⟩ := buildSerializeBody_cases s
    · rw [bodyOf, hbs, ← hb]
      exact (buildBody_frame s).1
    · have ht : t.regs = s.regs := by simpa [hb] using (buildBody_frame s).1
      rw [bodyOf, hbs, (serializeBody_frame t).1, ht]
  | discard => rfl

theorem bodyOf_engine (i : Instr) (s : State) (hi : i = .nop ∨ i = .build ∨ i = .discard) :
    (bodyOf i s).state.engine = s.engine := by
  obtain rfl | rfl | rfl := hi
  · rfl
  · exact (buildBody_frame s).2
  · rfl

theorem bodyOf_chain (i : Instr) (s : State) (hi : i = .nop ∨ i = .serialize) :
    (bodyOf i s).state.chain = s.chain := by
  obtain rfl | rfl := hi
  · rfl
  · exact (serializeBody_frame s).2

/-- Settles O34: a drop touches OVR only; an accepted command's body is framed field by field. -/
theorem commandsFrame : Obligations.CommandsFrame := by
  intro i s t h
  rw [exec_eq_issue] at h
  obtain ⟨hothers, hplatform, hmem, hinputs, hread, hdraws⟩ := issue_outside _ s t (bodyOf_outside i) h
  obtain ⟨hbusy, rfl⟩ | ⟨hidle, rfl⟩ := issue_cases _ s t h
  case inl =>
    exact ⟨rfl, fun _ => rfl, rfl, rfl, rfl, rfl, rfl, rfl, fun _ => rfl, fun _ => rfl,
      by simp [hbusy], fun _ => ⟨rfl, rfl, rfl, rfl, rfl⟩⟩
  case inr =>
    obtain ⟨e, hstatus⟩ := bodyOf_status i (clearStatus s)
    exact ⟨bodyOf_regs i (clearStatus s), fun a => by rw [hmem], hmem, hothers, hplatform, hinputs,
      hread, hdraws, bodyOf_engine i (clearStatus s), bodyOf_chain i (clearStatus s),
      fun _ => by rw [hstatus]; exact ⟨rfl, rfl⟩, by simp [hidle]⟩

/-! ### Errors -/

/-- R110 for BUILD_SERIALIZE: an error of the first half leaves no chain, one of the second the chain
built; neither starts the engine. -/
theorem buildSerializeBody_failed (s : State) (hclear : s.status.err = .none)
    (herr : (buildSerializeBody s).state.status.err ≠ .none) :
    (buildSerializeBody s).state.engine = s.engine ∧
    ((buildSerializeBody s).state.chain = ChainState.empty ∨
      (buildSerializeBody s).state.chain = latchChain s.regs.srcAddr s.regs.srcLen) := by
  rw [buildSerializeBody_eq s hclear] at herr ⊢
  by_cases hbuild : (buildBody s).state.status.err = .none
  · rw [if_pos hbuild] at herr ⊢
    have hengine := (serializeBody_engine_of_err _ herr hbuild).trans (buildBody_frame s).2
    refine ⟨hengine, .inr ?_⟩
    rw [(serializeBody_frame _).2, buildBody_chain s hclear, if_pos hbuild]
  · rw [if_neg hbuild] at herr ⊢
    exact ⟨(buildBody_frame s).2, .inl (by rw [buildBody_chain s hclear, if_neg hbuild])⟩

/-- Settles O32: the frame of all five commands, and each body's engine and chain when it raises. -/
theorem errorLeavesTheRest : Obligations.ErrorLeavesTheRest := by
  intro i s t hidle h herr
  obtain ⟨hregs, -, hmem, -, -, -, -, -, -, -, hstatus, -⟩ := commandsFrame i s t h
  obtain ⟨hdone, hovr⟩ := hstatus hidle
  rw [exec_idle i s hidle] at h
  obtain rfl := Host.Outcome.next.inj h
  refine ⟨hdone, hovr, hregs, ?_⟩
  cases i with
  | nop => exact absurd rfl herr
  | build =>
    have hchain : (buildBody (clearStatus s)).state.chain = ChainState.empty :=
      (buildBody_chain (clearStatus s) rfl).trans (if_neg herr)
    exact ⟨(buildBody_frame (clearStatus s)).2, hmem, fun _ => hchain, by simp⟩
  | serialize =>
    exact ⟨serializeBody_engine_of_err (clearStatus s) herr rfl, hmem, by simp, by simp,
      fun _ _ => (serializeBody_frame (clearStatus s)).2⟩
  | buildSerialize =>
    obtain ⟨hengine, hchain⟩ := buildSerializeBody_failed (clearStatus s) rfl herr
    exact ⟨hengine, hmem, by simp, fun _ => hchain, by simp⟩
  | discard => exact absurd rfl herr

/-- Settles O33: the two bodies' checks in their order, the second half of BUILD_SERIALIZE with the
count just latched. -/
theorem firstFailingCheckIsReported : Obligations.FirstFailingCheckIsReported := by
  refine fun s hidle => ⟨⟨_, exec_idle .serialize s hidle, ?_⟩,
    ⟨_, exec_idle .buildSerialize s hidle, ?_⟩⟩
  · exact serializeBody_err (clearStatus s) rfl
  · rw [bodyOf, buildSerializeBody_err (clearStatus s) rfl, serializeBody_err _ rfl,
      State.withChain_chain, (latchChain_counts _ _).1]
    rfl

/-! ### BUILD and SERIALIZE with every check passed -/

theorem exec_build_accepted (s : State) (hidle : s.engine.phase = .idle) (hlen : 1 ≤ s.regs.srcLen.toNat)
    (hfits : s.regs.srcAddr.toNat + s.regs.srcLen.toNat ≤ Config.addrSpace) :
    exec .build s =
      .next ((clearStatus s).withChain (latchChain s.regs.srcAddr s.regs.srcLen)) := by
  rw [exec_idle .build s hidle, bodyOf,
    buildBody_accepted (clearStatus s) (Nat.one_le_iff_ne_zero.mp hlen) hfits]
  rfl

/-- Settles O18: the latched chain is the request's, and `BuildRef` of a legal request is held. -/
theorem buildLatchesTheChain : Obligations.BuildLatchesTheChain := by
  intro s hidle hlen hfits
  obtain ⟨hcount, hlast⟩ := latchChain_counts s.regs.srcAddr s.regs.srcLen
  refine ⟨_, exec_build_accepted s hidle hlen hfits, rfl, rfl, rfl, rfl, hcount, hlast, ?_, ?_⟩
  · exact buildRef_heldChain ((clearStatus s).withChain _) (latchChain_ok _ _ hlen hfits) rfl
  · exact statusWord_of_clear _ hidle rfl

/-- Settles O25: the four checks pass, so the body ends with the engine started. -/
theorem serializeStartsTheEngine : Obligations.SerializeStartsTheEngine := by
  intro s hidle hvalid halign hcap hfits
  rw [exec_idle .serialize s hidle, bodyOf,
    serializeBody_accepted (clearStatus s) hvalid halign hcap hfits]
  rfl

/-- R91: clearing a clear status changes nothing. -/
theorem clearStatus_of_clear (s : State) (h : s.status = Status.clear) : clearStatus s = s := by
  rw [clearStatus, ← h]
  rfl

/-- Settles O27: a BUILD that raises nothing ends idle with the status clear, so that SERIALIZE's own
clearing changes nothing; ERR_NO_CHAIN is no outcome of the checks in their order. -/
theorem buildSerializeIsTheComposition : Obligations.BuildSerializeIsTheComposition := by
  intro s hidle
  have hboth : exec .buildSerialize s = .next (buildSerializeBody (clearStatus s)).state :=
    exec_idle .buildSerialize s hidle
  rw [buildSerializeBody_eq (clearStatus s) rfl] at hboth
  refine ⟨(buildBody (clearStatus s)).state, exec_idle .build s hidle, fun hnone => ?composed,
    fun herr => ?failed, fun u hu => ?neverNoChain⟩
  case composed =>
    obtain ⟨e, hstatus⟩ := buildBody_status (clearStatus s)
    have hclear : (buildBody (clearStatus s)).state.status = Status.clear := by
      rw [hstatus] at hnone
      obtain rfl : e = .none := hnone
      exact hstatus
    have hphase : (buildBody (clearStatus s)).state.engine.phase = .idle := by
      rw [(buildBody_frame _).2]
      exact hidle
    rw [hboth, if_pos hnone, exec_idle .serialize _ hphase, clearStatus_of_clear _ hclear]
    rfl
  case failed =>
    rw [hboth, if_neg herr]
  case neverNoChain =>
    obtain ⟨-, t, ht, hchecks⟩ := firstFailingCheckIsReported s hidle
    obtain rfl := Host.Outcome.next.inj (hu.symm.trans ht)
    rw [hchecks]
    split_ifs <;> decide

/-- 30_encoding.md R49: the STATUS word of a serialization just started. -/
theorem statusWord_of_started (s : State) (hbusy : s.engine.phase = .ser) (hvalid : s.chain.valid = true)
    (hclear : s.status = Status.clear) : statusWord s = 0x00000003 := by
  simp [statusWord, busy, hbusy, hvalid, hclear, Status.clear, ErrCode.code]

/-- Settles O26: the composition, both halves accepted. -/
theorem buildSerializeStartsTheEngine : Obligations.BuildSerializeStartsTheEngine := by
  intro s hidle hlen hfits halign hcap htable
  obtain ⟨t, ht, hcompose, -, -⟩ := buildSerializeIsTheComposition s hidle
  obtain rfl := Host.Outcome.next.inj ((exec_build_accepted s hidle hlen hfits).symm.trans ht)
  have hok := latchChain_ok _ _ hlen hfits
  have hcount := (latchChain_counts s.regs.srcAddr s.regs.srcLen).1
  have hnext := serializeStartsTheEngine
    ((clearStatus s).withChain (latchChain s.regs.srcAddr s.regs.srcLen)) hidle rfl halign
    (by rw [State.withChain_chain, hcount]; exact hcap)
    (by rw [State.withChain_chain, hcount]; exact htable)
  refine ⟨_, (hcompose rfl).trans hnext, rfl, ?_, hcount, hok, statusWord_of_started _ rfl rfl rfl⟩
  exact buildRef_heldChain (((clearStatus s).withChain _).withEngine _) hok rfl

end Sys2Proof.Proofs
end

section
/-! Command words (30_encoding.md R50 to R52), Parse (41_record_serializer.md R86) and BuildRef's domain
(40_chain_builder.md R66). -/

namespace Sys2Proof.Proofs

open Sys2Proof.Machine

/-! ### Command words -/

theorem opField_toNat (w : Word) : (opField w).toNat = w.toNat % 16 := by
  simp [opField, BitVec.extractLsb'_toNat]

theorem rsvdField_eq_zero_iff (w : Word) : rsvdField w = 0#28 ↔ w.toNat / 16 = 0 := by
  have hw := w.isLt
  rw [← BitVec.toNat_inj, rsvdField, BitVec.extractLsb'_toNat, Nat.shiftRight_eq_div_pow,
    BitVec.toNat_ofNat]
  omega

/-- R50: the two fields are the whole word. -/
theorem word_of_fields (w : Word) (hrsvd : rsvdField w = 0#28) : w.toNat = (opField w).toNat := by
  rw [rsvdField_eq_zero_iff] at hrsvd
  rw [opField_toNat]
  omega

theorem decode_encode (i : Instr) : decode (encode i) = .ok i := by
  cases i <;> rfl

/-- R51: what decodes to a command is the command's word. -/
theorem eq_encode_of_decode (w : Word) (i : Instr) (h : decode w = .ok i) : w = encode i := by
  rw [decode] at h
  split at h
  · rename_i hrsvd
    have hword := word_of_fields w hrsvd
    apply BitVec.eq_of_toNat_eq
    rw [hword]
    split at h
    case h_6 => cases h
    all_goals
      obtain rfl := Except.ok.inj h
      assumption
  · cases h

theorem decode_eq_ok_iff (w : Word) (i : Instr) : decode w = .ok i ↔ w = encode i :=
  ⟨eq_encode_of_decode w i, fun h => h ▸ decode_encode i⟩

/-- R52, in the fields of R50. -/
theorem legalWord_eq_false_iff (w : Word) :
    legalWord w = false ↔ rsvdField w ≠ 0#28 ∨ 5 ≤ (opField w).toNat := by
  simp only [legalWord, rsvdIsZero, opIsCommand, Bool.and_eq_false_iff, beq_eq_false_iff_ne,
    decide_eq_false_iff_not, ne_eq, rsvdField_eq_zero_iff, opField_toNat, Nat.not_le]
  rfl

/-- R51, R52: a legal word is one of the five of the table. -/
theorem exists_encode_of_legal (w : Word) (h : legalWord w = true) : ∃ i, w = encode i := by
  have hfields := mt (legalWord_eq_false_iff w).mpr (by rw [h]; decide)
  obtain ⟨hrsvd, hop⟩ := not_or.mp hfields
  have hword := word_of_fields w (not_not.mp hrsvd)
  obtain h0 | h1 | h2 | h3 | h4 : w.toNat = 0 ∨ w.toNat = 1 ∨ w.toNat = 2 ∨ w.toNat = 3 ∨ w.toNat = 4 := by
    omega
  · exact ⟨.nop, BitVec.eq_of_toNat_eq h0⟩
  · exact ⟨.build, BitVec.eq_of_toNat_eq h1⟩
  · exact ⟨.serialize, BitVec.eq_of_toNat_eq h2⟩
  · exact ⟨.buildSerialize, BitVec.eq_of_toNat_eq h3⟩
  · exact ⟨.discard, BitVec.eq_of_toNat_eq h4⟩

/-- Settles O1: decoding and encoding are inverse on the legal words, and illegal ones do not decode. -/
theorem decodeSelectsByTheWholeWord : Obligations.DecodeSelectsByTheWholeWord := by
  refine ⟨fun w i _ => decode_eq_ok_iff w i, fun w => ⟨?_, fun h => ?_⟩, legalWord_eq_false_iff⟩
  · rintro ⟨i, hi⟩
    by_contra hillegal
    obtain ⟨e, he⟩ :=
      decode_illegal w ((legalWord_eq_false_iff w).mp (Bool.eq_false_of_not_eq_true hillegal))
    rw [hi] at he
    cases he
  · obtain ⟨i, rfl⟩ := exists_encode_of_legal w h
    exact ⟨i, decode_encode i⟩

/-- Settles O2, the seven words of the table one by one. -/
theorem tableWordsDecode : Obligations.TableWordsDecode :=
  ⟨rfl, rfl, rfl, rfl, rfl, rfl, rfl⟩

/-! ### Parse -/

/-- R79, R86: formatting the fields of 8 bytes gives the bytes back. -/
theorem formatRecord_decRecord (b0 b1 b2 b3 b4 b5 b6 b7 : Byte) :
    formatRecord (decRecord b0 b1 b2 b3 b4 b5 b6 b7) = [b0, b1, b2, b3, b4, b5, b6, b7] := by
  have hlen : (BitVec.ofNat 16 (fromLE [b2, b3])).toNat = fromLE [b2, b3] :=
    Nat.mod_eq_of_lt ((fromLE_lt [b2, b3]).trans_eq (by norm_num))
  have hadr : (BitVec.ofNat 32 (fromLE [b4, b5, b6, b7])).toNat = fromLE [b4, b5, b6, b7] :=
    Nat.mod_eq_of_lt ((fromLE_lt [b4, b5, b6, b7]).trans_eq (by norm_num))
  have h2 : leBytes 2 (fromLE [b2, b3]) = [b2, b3] := leBytes_fromLE [b2, b3]
  have h4 : leBytes 4 (fromLE [b4, b5, b6, b7]) = [b4, b5, b6, b7] := leBytes_fromLE [b4, b5, b6, b7]
  simp only [formatRecord, decRecord, hlen, hadr, h2, h4]
  rfl

/-- R86: what is neither empty nor eight bytes and more has no parse. -/
theorem parse_short (bs : List Byte) (hpos : 0 < bs.length) (hlt : bs.length < 8) : parse bs = none := by
  rw [parse]
  · rintro rfl
    simp at hpos
  · rintro b0 b1 b2 b3 b4 b5 b6 b7 rest rfl
    simp only [List.length_cons] at hlt
    omega

theorem exists_eight_of_length (bs : List Byte) (h : 8 ≤ bs.length) :
    ∃ b0 b1 b2 b3 b4 b5 b6 b7 rest, bs = b0 :: b1 :: b2 :: b3 :: b4 :: b5 :: b6 :: b7 :: rest := by
  match bs, h with
  | b0 :: b1 :: b2 :: b3 :: b4 :: b5 :: b6 :: b7 :: rest, _ =>
    exact ⟨b0, b1, b2, b3, b4, b5, b6, b7, rest, rfl⟩

/-- Parse takes eight bytes at a time: nothing left, too few left, or eight and the rest. -/
theorem eightwise_induction {P : List Byte → Prop} (hnil : P [])
    (hshort : ∀ bs : List Byte, 0 < bs.length → bs.length < 8 → P bs)
    (height : ∀ b0 b1 b2 b3 b4 b5 b6 b7 rest, P rest →
      P (b0 :: b1 :: b2 :: b3 :: b4 :: b5 :: b6 :: b7 :: rest)) (bs : List Byte) : P bs := by
  induction hn : bs.length using Nat.strong_induction_on generalizing bs with
  | _ n ih =>
    obtain h0 | hpos := Nat.eq_zero_or_pos bs.length
    · exact List.eq_nil_of_length_eq_zero h0 ▸ hnil
    obtain hlt | hge := lt_or_ge bs.length 8
    · exact hshort bs hpos hlt
    · obtain ⟨b0, b1, b2, b3, b4, b5, b6, b7, rest, rfl⟩ := exists_eight_of_length bs hge
      refine height _ _ _ _ _ _ _ _ rest (ih rest.length ?_ rest rfl)
      simp only [List.length_cons] at hn
      omega

theorem serialize_of_parse (bs : List Byte) : ∀ ch, parse bs = some ch → serialize ch = bs := by
  induction bs using eightwise_induction with
  | hnil => rintro ch ⟨⟩; rfl
  | hshort bs hpos hlt => intro ch h; rw [parse_short bs hpos hlt] at h; cases h
  | height b0 b1 b2 b3 b4 b5 b6 b7 rest ih =>
    intro ch h
    rw [parse_eight] at h
    obtain ⟨tail, htail, rfl⟩ := Option.map_eq_some_iff.mp h
    rw [serialize_cons, formatRecord_decRecord, ih tail htail]
    rfl

theorem parse_eq_none_iff (bs : List Byte) : parse bs = none ↔ bs.length % 8 ≠ 0 := by
  induction bs using eightwise_induction with
  | hnil => simp
  | hshort bs hpos hlt => exact iff_of_true (parse_short bs hpos hlt) (by omega)
  | height b0 b1 b2 b3 b4 b5 b6 b7 rest ih =>
    rw [parse_eight, Option.map_eq_none_iff, ih]
    simp only [List.length_cons]
    omega

/-- Settles O6: both clauses eight bytes at a time. -/
theorem serializeOfParse : Obligations.SerializeOfParse :=
  ⟨serialize_of_parse, parse_eq_none_iff⟩

/-! ### BuildRef's domain -/

theorem buildRef_eq_none_iff (a l : Word) :
    buildRef a l = none ↔ l.toNat ≠ 0 ∧ Config.addrSpace < a.toNat + l.toNat := by
  rw [buildRef, ite_eq_right_iff]
  simp only [reduceCtorEq, imp_false, not_or, Nat.not_le, ne_eq]

/-- Settles O8: a record's segment starts where the full ones before it end and is cut at the end of the
buffer. -/
theorem buildStaysInAddressSpace : Obligations.BuildStaysInAddressSpace := by
  refine ⟨buildRef_eq_none_iff, fun a l ch i r h hr => ?_⟩
  have hstart := buildRef_segment_starts a l ch i r h hr
  have hfits := buildRef_fits a l ch (Nat.one_le_of_lt hstart) h
  rw [buildRef_record a l ch i r h hr, segmentRecord_address _ _ i hfits hstart, segmentRecord_length]
  omega

end Sys2Proof.Proofs
end

section
/-! The register window as the host sees it: configuration and read-only registers (10_state.md R17, R25),
the STATUS word (30_encoding.md R49), the readback port, the accesses no block answers (20_memory.md R38),
the window of each block (60_exceptions.md R119), and the values after reset (10_state.md R28). -/

namespace Sys2Proof.Proofs

open Sys2Proof.Machine

/-! ### Reads and writes of the registers -/

/-- Whether a register is one of the five of 10_state.md R17. -/
def IsConfig (r : Reg) : Prop :=
  r = .srcAddr ∨ r = .srcLen ∨ r = .tblBase ∨ r = .tblCap ∨ r = .recIndex

@[simp] theorem readReg_withInputs (r : Reg) (s : State) (l : List Input) :
    readReg r (s.withInputs l) = readReg r s := by
  cases r <;> rfl

theorem writeReg_of_ne_cmd (r : Reg) (v : Word) (s : State) (h : r ≠ .cmd) :
    writeReg r v s = .next (s.withRegs (s.regs.put r v)) := by
  obtain ⟨hcmd, -⟩ | ⟨-, hw⟩ := writeReg_cases r v s
  · exact absurd hcmd h
  · exact hw

/-- 10_state.md R17: a configuration register reads what was stored there, and no other store touches
it. -/
theorem readReg_put (q r : Reg) (v : Word) (s : State) (hq : IsConfig q) :
    readReg q (s.withRegs (s.regs.put r v)) = if q = r then v else readReg q s := by
  obtain rfl | rfl | rfl | rfl | rfl := hq
  all_goals cases r <;> rfl

/-- 10_state.md R25, R26: the other registers keep no value a store could change. -/
theorem put_of_not_config (r : Reg) (v : Word) (g : Regs) (h : ¬ IsConfig r) : g.put r v = g := by
  cases r
  case srcAddr | srcLen | tblBase | tblCap | recIndex => exact absurd (by simp [IsConfig]) h
  all_goals rfl

theorem withRegs_self (s : State) : s.withRegs s.regs = s := rfl

/-- Settles O35: the step is the register's write, and the five registers are read after it. -/
theorem configStoreReadsBack : Obligations.ConfigStoreReadsBack := by
  intro s r v rest hr hinput
  have hcmd : r ≠ .cmd := by rintro rfl; simp at hr
  have hread (q : Reg) (hq : IsConfig q) := readReg_put q r v (s.withInputs rest) hq
  refine ⟨_, (step_wrInput s r v rest hinput).trans (writeReg_of_ne_cmd r v _ hcmd), ?_, ?_, rfl⟩
  · rw [hread r hr, if_pos rfl]
  · intro q hq hne
    rw [hread q hq, if_neg hne, readReg_withInputs]

/-- Settles O37: the write stores nothing. -/
theorem readOnlyRegistersIgnoreWrites : Obligations.ReadOnlyRegistersIgnoreWrites := by
  intro s r v rest hr hinput
  have hcmd : r ≠ .cmd := by rintro rfl; simp at hr
  have hconfig : ¬ IsConfig r := by
    obtain rfl | rfl | rfl | rfl | rfl | rfl := hr
    all_goals simp [IsConfig]
  rw [step_wrInput s r v rest hinput, writeReg_of_ne_cmd r v _ hcmd, put_of_not_config r v _ hconfig,
    withRegs_self]

/-- Settles O39: the step equation of a load, each register's value, and the map in both directions. -/
theorem registerReadsFollowTheMap : Obligations.RegisterReadsFollowTheMap := by
  refine ⟨fun s off rest h4 hlt hinput => ?load, fun s => ?values, ?map,
    fun r => ⟨regAt_regOffset r, regOffset_aligned r, regOffset_lt r⟩⟩
  case load => rw [step_loadOffset s off rest hlt h4 hinput, readReg_withInputs]
  case values => exact ⟨rfl, rfl, rfl, rfl, rfl, rfl, rfl, rfl, rfl, rfl, rfl⟩
  case map => exact ⟨rfl, rfl, rfl, rfl, rfl, rfl, rfl, rfl, rfl, rfl, rfl, rfl, rfl, rfl, rfl, rfl⟩

/-! ### STATUS -/

theorem statusWord_bit_done (s : State) : (statusWord s).getLsbD 2 = s.status.done :=
  BitVec.getLsbD_concat_succ.trans (BitVec.getLsbD_concat_succ.trans BitVec.getLsbD_concat_zero)

theorem statusWord_bit_ovr (s : State) : (statusWord s).getLsbD 3 = s.status.ovr :=
  BitVec.getLsbD_concat_succ.trans (BitVec.getLsbD_concat_succ.trans
    (BitVec.getLsbD_concat_succ.trans BitVec.getLsbD_concat_zero))

/-- STATUS as a number: ERR above four flags. -/
theorem statusWord_toNat (s : State) : (statusWord s).toNat =
    (busy s).toNat + 2 * (s.chain.valid.toNat + 2 * (s.status.done.toNat + 2 * (s.status.ovr.toNat +
      2 * s.status.err.code.toNat))) := by
  simp only [statusWord, toNat_append_eq_add, BitVec.toNat_ofBool, BitVec.toNat_ofNat]
  omega

/-- Settles O40: the low bits one by one, ERR and the reserved bits from STATUS as a number. -/
theorem statusWordLayout : Obligations.StatusWordLayout := by
  intro s
  have herr := s.status.err.code.isLt
  have hb := Bool.toNat_le (busy s)
  have hv := Bool.toNat_le s.chain.valid
  have hd := Bool.toNat_le s.status.done
  have ho := Bool.toNat_le s.status.ovr
  have hword := statusWord_toNat s
  have hslice (i n : Nat) :
      ((statusWord s).extractLsb' i n).toNat = (statusWord s).toNat / 2 ^ i % 2 ^ n := by
    rw [BitVec.extractLsb'_toNat, Nat.shiftRight_eq_div_pow]
  refine ⟨rfl, ?_, statusWord_bit_chain s, statusWord_bit_done s, statusWord_bit_ovr s, ?_, ?_⟩
  · rw [statusWord_bit_busy, busy, decide_eq_true_eq]
  · apply BitVec.eq_of_toNat_eq
    rw [hslice]
    omega
  · apply BitVec.eq_of_toNat_eq
    rw [hslice, BitVec.toNat_ofNat]
    omega

/-! ### The readback port -/

/-- Settles O41: a record of the held chain, with 0x00 in the reserved field, or none. -/
theorem readbackPort : Obligations.ReadbackPort := by
  intro s hok
  constructor
  · intro hvalid hidx
    obtain ⟨r, hr⟩ := exists_recordAt s s.regs.recIndex.toNat hok hvalid hidx
    obtain ⟨-, -, hheld⟩ := recordAt_lt s _ r hr
    obtain ⟨hattr, hreserved⟩ := emittedAttributes.2.2 _ _ _ _ r (buildRef_heldChain s hok hvalid) hheld
    refine ⟨r, hheld, ?_, ?_⟩
    · rw [readReg, readback_of_recordAt word0 s r hr, word0_eq, hreserved]; rfl
    · rw [readReg, readback_of_recordAt word1 s r hr, word1_eq]
  · intro hnone
    have hr := recordAt_eq_none s s.regs.recIndex.toNat hnone
    simp [readReg, readback, hr]

/-! ### Accesses to the windows -/

theorem windowOf_of_touchesAny (p : Platform) (a n : Nat) (h : touchesAnyWindow p a n = true) :
    ∃ k, windowOf p a n = some k := by
  rw [← Option.isSome_iff_exists, Option.isSome_iff_ne_none, Ne, windowOf_eq_none, h]
  decide

/-- Settles O42: the access lies in some window and is no register access. -/
theorem otherWindowAccessesRefused : Obligations.OtherWindowAccessesRefused := by
  intro s a z v rest htouch hother
  obtain ⟨k, hk⟩ := windowOf_of_touchesAny s.platform a.toNat z.bytes htouch
  have hreg : isRegAccess a z = false := decide_eq_false hother
  constructor
  · intro h
    simp [step_input s _ rest h, runInput, busStore, hk, hreg]
  · intro h
    simp [step_input s _ rest h, runInput, busLoad, hk, hreg]

/-- 60_exceptions.md R119: the window brought to the front is block `k`'s. -/
theorem focus_regPage (p : Platform) (k : Nat) (hk : k < p.instances) :
    (p.regPage :: p.otherPages)[k]? = some (p.focus k).regPage := by
  cases k with
  | zero => rfl
  | succ k =>
    have hk' : k < p.otherPages.length := Nat.lt_of_succ_lt_succ hk
    rw [Platform.focus_some p k _ (List.getElem?_eq_getElem hk')]
    simp [hk']

/-- Two windows share an aligned word only if they are the same. -/
theorem touchesPage_aligned (q q' : BitVec 26) (off : Nat) (hlt : off < 64) (h4 : off % 4 = 0)
    (h : touchesPage q' (pageBase q + off) 4 = true) : q' = q := by
  apply BitVec.eq_of_toNat_eq
  have hoverlap := of_decide_eq_true h
  simp only [pageBase, Config.windowSize] at hoverlap
  omega

/-- 60_exceptions.md R119: with windows of their own, an access to block `k`'s goes to block `k`. -/
theorem windowOf_focus (p : Platform) (k off : Nat) (hdistinct : WindowsDistinct p)
    (hk : k < p.instances) (hlt : off < 64) (h4 : off % 4 = 0) :
    windowOf p (windowAddr (p.focus k) off).toNat 4 = some k := by
  have hpage := focus_regPage p k hk
  obtain ⟨hlen, hget⟩ := List.getElem?_eq_some_iff.mp hpage
  obtain ⟨htouch, -, -⟩ := windowAddr_isRegAccess (p.focus k) off hlt h4
  refine List.findIdx?_eq_some_iff_getElem.mpr ⟨hlen, hget ▸ htouch, fun j hj htouch' => ?_⟩
  rw [windowAddr_toNat _ off hlt] at htouch'
  have hsame := touchesPage_aligned _ _ off hlt h4 htouch'
  exact hj.ne ((List.Nodup.getElem_inj_iff hdistinct).mp (hsame.trans hget.symm))

/-! ### What arrives at block `k` -/

theorem onInstance_iff (k : Nat) (f : State → Host.Outcome State Fault Refusal) (s t : State)
    (hk : k < s.instances) : onInstance k f s = .next t ↔ f (s.focus k) = .next (t.focus k) := by
  constructor
  · intro h
    obtain ⟨hk', -⟩ | ⟨-, u, hu, rfl⟩ := onInstance_cases k f s t h
    · omega
    · rw [hu, State.focus_focus]
  · intro h
    rw [onInstance_next k f s _ hk h, State.focus_focus]

theorem busStore_of_window (a : Word) (v : DWord) (s : State) (k : Nat)
    (hwindow : windowOf s.platform a.toNat 4 = some k) (hreg : isRegAccess a .word = true) :
    busStore a .word v s = onInstance k (windowStore a v) s := by
  simp only [busStore, Size.bytes, hwindow, hreg, if_true]

theorem busLoad_of_window (a : Word) (s : State) (k : Nat)
    (hwindow : windowOf s.platform a.toNat 4 = some k) (hreg : isRegAccess a .word = true) :
    busLoad a .word s = onInstance k (windowLoad a) s := by
  simp only [busLoad, Size.bytes, hwindow, hreg, if_true]

/-- An input that does `f` to block `k`, and to the front block when it comes to the exchanged
state. -/
theorem step_iff_of_front (f : State → Host.Outcome State Fault Refusal) (s t : State) (k : Nat)
    (i j : Input) (rest : List Input) (hk : k < s.instances) (hinput : s.inputs = i :: rest)
    (hat : runInput i (s.withInputs rest) = onInstance k f (s.withInputs rest))
    (hfront : runInput j ((s.focus k).withInputs rest) = onInstance 0 f ((s.focus k).withInputs rest)) :
    step s = .next t ↔ step ((s.focus k).withInputs (j :: rest)) = .next (t.focus k) := by
  rw [step_input s i rest hinput, hat, onInstance_iff k f (s.withInputs rest) t hk, State.focus_withInputs,
    step_input ((s.focus k).withInputs (j :: rest)) j rest rfl]
  exact iff_of_eq (congrArg (· = _) (hfront.trans (onInstance_zero f _)).symm)

/-- 60_exceptions.md R119, third clause of O43: each kind of input a block takes. -/
theorem step_focus_iff (s t : State) (k : Nat) (i j : Input) (rest : List Input) (hk : k < s.instances)
    (hlen : s.others.length = s.platform.otherPages.length) (hdistinct : WindowsDistinct s.platform)
    (harrives : (i = .engine k ∧ j = .engine 0) ∨ (i = .reset k ∧ j = .reset 0) ∨
      (∃ r v, i = wrInput (s.platform.focus k) r v ∧ j = i) ∨
      (∃ r, i = rdInput (s.platform.focus k) r ∧ j = i))
    (hinput : s.inputs = i :: rest) :
    step s = .next t ↔ step ((s.focus k).withInputs (j :: rest)) = .next (t.focus k) := by
  have hwindow (r : Reg) :
      windowOf s.platform (windowAddr (s.platform.focus k) (regOffset r)).toNat 4 = some k :=
    windowOf_focus _ k _ hdistinct (by rwa [Platform.instances, ← hlen]) (regOffset_lt r)
      (regOffset_aligned r)
  have haccess (r : Reg) := windowAddr_isRegAccess (s.platform.focus k) (regOffset r) (regOffset_lt r)
    (regOffset_aligned r)
  have hplatform := State.focus_platform s k hk
  have hfront (r : Reg) :
      windowOf (s.focus k).platform (windowAddr (s.platform.focus k) (regOffset r)).toNat 4 = some 0 := by
    rw [hplatform]
    exact windowOf_own _ _ _ (haccess r).1
  obtain ⟨rfl, rfl⟩ | ⟨rfl, rfl⟩ | ⟨r, v, rfl, rfl⟩ | ⟨r, rfl, rfl⟩ := harrives
  · exact step_iff_of_front engineStep s t k _ _ rest hk hinput rfl rfl
  · exact step_iff_of_front (fun u => .next (resetBlock u)) s t k _ _ rest hk hinput rfl rfl
  · exact step_iff_of_front _ s t k _ _ rest hk hinput
      (busStore_of_window _ _ _ k (hwindow r) (haccess r).2.1)
      (busStore_of_window _ _ _ 0 (hfront r) (haccess r).2.1)
  · exact step_iff_of_front _ s t k _ _ rest hk hinput
      (busLoad_of_window _ _ k (hwindow r) (haccess r).2.1)
      (busLoad_of_window _ _ 0 (hfront r) (haccess r).2.1)

theorem step_decodedCommand (s : State) (w : Word) (i : Instr) (rest : List Input)
    (hinput : s.inputs = wrInput s.platform .cmd w :: rest) (hdecode : decode w = .ok i) :
    step s = exec i (s.withInputs rest) := by
  rw [step_wrInput s .cmd w rest hinput, writeReg_cmd, commandWrite, hdecode]

/-- Settles O43: on the front block it is the step equation of a write to CMD; every other block is
brought to the front first. -/
theorem stepRunsTheDecodedCommand : Obligations.StepRunsTheDecodedCommand := by
  refine ⟨fun s w i rest hinput hdecode _ => step_decodedCommand s w i rest hinput hdecode,
    fun s k i rest hk hlen hdistinct hinput => ?line, step_focus_iff⟩
  obtain ⟨t, ht⟩ := exec_next i ((s.withInputs rest).focus k)
  refine ⟨t, ht, ?_⟩
  have hfront : ((s.focus k).withInputs (wrInput (s.platform.focus k) .cmd (encode i) :: rest)).inputs =
      wrInput (s.focus k).platform .cmd (encode i) :: rest := by
    rw [State.focus_platform s k hk]
    rfl
  rw [step_focus_iff s (t.focus k) k _ _ rest hk hlen hdistinct (.inr (.inr (.inl ⟨_, _, rfl, rfl⟩)))
    hinput, State.focus_focus, step_decodedCommand _ _ i rest hfront (decode_encode i), ← ht,
    State.focus_withInputs]
  rfl

/-! ### Reset -/

/-- 10_state.md R28: a block that was just reset has nothing to show. -/
theorem readReg_of_atReset (r : Reg) (s : State) (h : s.block = Block.atReset) : readReg r s = 0 := by
  obtain ⟨regs, chain, engine, status, others, mem, platform, inputs, lastRead, draws⟩ := s
  obtain ⟨rfl, rfl, rfl, rfl⟩ := Block.mk.inj h
  cases r
  case status => exact statusWord_of_clear _ rfl rfl
  all_goals rfl

theorem memAfterReset_of_idle (s : State) (h : s.engine.phase = .idle) : memAfterReset s = s.mem := by
  simp [memAfterReset, engineTurn_idle s h]

theorem step_reset (s : State) (rest : List Input) (h : s.inputs = .reset 0 :: rest) :
    step s = .next (resetBlock (s.withInputs rest)) := by
  rw [step_input s _ rest h, runInput, onInstance_zero]

theorem resetOn_blockAt (p : Platform) (k : Nat) (hk : k < p.instances) :
    (State.resetOn p).blockAt k = some Block.atReset := by
  cases k with
  | zero => rfl
  | succ k =>
    have hk' : k < p.otherPages.length := Nat.lt_of_succ_lt_succ hk
    simp [State.blockAt, hk']

/-- Settles O47: the reset state's fields, and a reset input's effect field by field. -/
theorem resetValues : Obligations.ResetValues := by
  intro p
  refine ⟨rfl, rfl, rfl, rfl, rfl, fun r => readReg_of_atReset r _ rfl, ?_, resetOn_blockAt p, ?_⟩
  · simp [State.instances, Platform.instances]
  · rintro s ⟨rest, hinput⟩
    exact ⟨_, step_reset s rest hinput, fun hidle => memAfterReset_of_idle _ hidle, rfl, rfl, rfl, rfl,
      rfl⟩

/-- Settles O52: every block is at reset, idle and not done, and memory is empty. -/
theorem invariantAtReset : Obligations.InvariantAtReset := by
  intro p
  refine ⟨⟨blockOk_reset, fun b hb => ?_, List.length_map _, List.Pairwise.nil, by simp⟩,
    tableInMemory_of_idle _ rfl rfl⟩
  obtain ⟨-, -, rfl⟩ := List.mem_map.mp hb
  exact blockOk_reset

end Sys2Proof.Proofs
end

section
/-! What a step does to one block and to memory, in every state: which inputs change the status
(10_state.md R24), the chain and the engine (42_host_commands.md R97), the configuration registers
(10_state.md R17) and a byte of memory (20_memory.md R31, R32). -/

namespace Sys2Proof.Proofs

open Sys2Proof.Machine

/-! ### A register write -/

/-- What an accepted write to CMD leaves: a command's body, or the error of an illegal word, after the
status clearing (42_host_commands.md R91). -/
def Accepted (s t : State) : Prop :=
  (∃ i, t = (bodyOf i (clearStatus s)).state) ∨ t = (raiseErr .badCmd (clearStatus s)).state

theorem accepted_status (s t : State) (h : Accepted s t) : ∃ e, t.status = ⟨false, false, e⟩ := by
  obtain ⟨i, rfl⟩ | rfl := h
  · exact bodyOf_status i (clearStatus s)
  · exact ⟨_, rfl⟩

theorem accepted_regs (s t : State) (h : Accepted s t) : t.regs = s.regs := by
  obtain ⟨i, rfl⟩ | rfl := h
  · exact bodyOf_regs i (clearStatus s)
  · rfl

/-- Everything a register write can do: a configuration register, a dropped word, an accepted one. -/
theorem writeReg_next_cases (r : Reg) (v : Word) (s t : State) (h : writeReg r v s = .next t) :
    (r ≠ .cmd ∧ t = s.withRegs (s.regs.put r v)) ∨
    (r = .cmd ∧ s.engine.phase = .ser ∧ t = dropCommand s) ∨
    (r = .cmd ∧ s.engine.phase = .idle ∧ Accepted s t) := by
  obtain ⟨hr, hw⟩ | ⟨hr, hw⟩ := writeReg_cases r v s
  · obtain ⟨body, hbody, hkind⟩ := commandWrite_issue v s
    rw [hw, hbody] at h
    obtain ⟨hphase, rfl⟩ | ⟨hphase, rfl⟩ := issue_cases body s t h
    · exact .inr (.inl ⟨hr, hphase, rfl⟩)
    · refine .inr (.inr ⟨hr, hphase, ?_⟩)
      obtain ⟨i, rfl⟩ | rfl := hkind
      · exact .inl ⟨i, rfl⟩
      · exact .inr rfl
  · rw [hw] at h
    exact .inl ⟨hr, (Host.Outcome.next.inj h).symm⟩

/-- 42_host_commands.md R89, R91: while BUSY no register write changes chain or engine, while idle only
one to CMD does. -/
theorem writeReg_keeps_chain_engine (r : Reg) (v : Word) (s t : State) (h : writeReg r v s = .next t)
    (hother : r ≠ .cmd ∨ s.engine.phase = .ser) : t.chain = s.chain ∧ t.engine = s.engine := by
  obtain ⟨-, rfl⟩ | ⟨-, -, rfl⟩ | ⟨hr, hidle, -⟩ := writeReg_next_cases r v s t h
  · exact ⟨rfl, rfl⟩
  · exact ⟨rfl, rfl⟩
  · rw [hidle] at hother
    exact absurd hr (hother.resolve_right Phase.noConfusion)

/-- 10_state.md R24: a register write changes DONE and ERR only as an accepted command. -/
theorem writeReg_changes_done_err (r : Reg) (v : Word) (s t : State) (h : writeReg r v s = .next t)
    (hchange : t.status.done ≠ s.status.done ∨ t.status.err ≠ s.status.err) :
    r = .cmd ∧ s.engine.phase = .idle ∧ t.status.done = false := by
  obtain ⟨-, rfl⟩ | ⟨-, -, rfl⟩ | ⟨hr, hidle, hacc⟩ := writeReg_next_cases r v s t h
  · simp at hchange
  · simp at hchange
  · obtain ⟨e, hstatus⟩ := accepted_status s t hacc
    exact ⟨hr, hidle, by rw [hstatus]⟩

/-- 10_state.md R24: a write to CMD clears OVR while idle and sets it while BUSY. -/
theorem writeReg_changes_ovr (r : Reg) (v : Word) (s t : State) (h : writeReg r v s = .next t)
    (hchange : t.status.ovr ≠ s.status.ovr) :
    r = .cmd ∧ ((s.engine.phase = .idle ∧ t.status.ovr = false) ∨
      (s.engine.phase = .ser ∧ t.status.ovr = true)) := by
  obtain ⟨-, rfl⟩ | ⟨hr, hser, rfl⟩ | ⟨hr, hidle, hacc⟩ := writeReg_next_cases r v s t h
  · exact absurd rfl hchange
  · exact ⟨hr, .inr ⟨hser, rfl⟩⟩
  · obtain ⟨e, hstatus⟩ := accepted_status s t hacc
    exact ⟨hr, .inl ⟨hidle, by rw [hstatus]⟩⟩

/-- 10_state.md R17: only a store to one of the five registers changes a configuration register. -/
theorem writeReg_changes_regs (r : Reg) (v : Word) (s t : State) (h : writeReg r v s = .next t)
    (hchange : t.regs ≠ s.regs) : IsConfig r := by
  by_contra hr
  obtain ⟨-, rfl⟩ | ⟨-, -, rfl⟩ | ⟨-, -, hacc⟩ := writeReg_next_cases r v s t h
  · exact hchange (put_of_not_config r v s.regs hr)
  · exact hchange rfl
  · exact hchange (accepted_regs s t hacc)

/-! ### The engine's turn -/

theorem engineStep_idle (s t : State) (h : engineStep s = .next t) (hidle : s.engine.phase = .idle) :
    t = s := by
  obtain rfl | ⟨a, r, hw, -⟩ := engineStep_cases s t h
  · rfl
  · rw [engineTurn_idle s hidle] at hw
    cases hw

/-- 20_memory.md R43: DONE is set by the turn that writes the last record. -/
theorem engineStep_changes_done (s t : State) (h : engineStep s = .next t)
    (hchange : t.status.done ≠ s.status.done) :
    s.engine.phase = .ser ∧ s.engine.serIdx.toNat + 1 = s.chain.count.toNat ∧ t.status.done = true := by
  obtain rfl | ⟨a, r, hw, rfl⟩ := engineStep_cases s t h
  · exact absurd rfl hchange
  obtain ⟨hser, -⟩ := engineTurn_write s a r hw
  generalize memWrite s.mem a Config.recSize (rec64 r).toNat = m at hchange ⊢
  by_cases hlast : s.engine.serIdx.toNat + 1 = s.chain.count.toNat
  · refine ⟨hser, hlast, ?_⟩
    rw [(advanceEngine_last (s.withMem m) hlast).2]
  · rw [(advanceEngine_notLast (s.withMem m) hlast).2] at hchange
    exact absurd rfl hchange

theorem engineStep_err (s t : State) (h : engineStep s = .next t) : t.status.err = s.status.err := by
  obtain rfl | ⟨a, r, -, rfl⟩ := engineStep_cases s t h <;> simp

/-- 20_memory.md R32: the record about to be written lies in the table. -/
theorem engineTurn_write_inside (s : State) (a : Nat) (r : Record) (h : engineTurn s = .write a r) :
    s.engine.phase = .ser ∧ a = s.engine.serBase.toNat + Config.recSize * s.engine.serIdx.toNat ∧
    a + Config.recSize ≤ s.engine.serBase.toNat + Config.recSize * s.chain.count.toNat := by
  obtain ⟨hser, hr, rfl, -, -⟩ := engineTurn_write s a r h
  obtain ⟨-, hlt, -⟩ := recordAt_lt s _ r hr
  refine ⟨hser, rfl, ?_⟩
  simp only [nextRecordAddr, Config.recSize]
  omega

/-! ### What arrives, and at which offset -/

theorem engineArrives_of_touch (s : State) (k : Nat) (h : Touch.engine.arrives k s) :
    engineArrives s k :=
  h.imp And.left id

/-- A register write that reaches a block is a 32-bit store at an aligned offset of its window. -/
theorem storeArrives_offset (s : State) (k : Nat) (a : Word) (v : DWord)
    (h : (Touch.store a v).arrives k s) :
    a.toNat - regBase (s.platform.focus k) < 64 ∧ (a.toNat - regBase (s.platform.focus k)) % 4 = 0 ∧
    storeArrives s k (a.toNat - regBase (s.platform.focus k)) := by
  obtain ⟨⟨rest, hinput⟩, hwindow, haccess⟩ := h
  obtain ⟨-, htouch⟩ := windowOf_touches s.platform a.toNat 4 k hwindow
  obtain ⟨-, hbase, hlt, h4⟩ := regAccess_inside (s.platform.focus k) a .word htouch haccess
  exact ⟨hlt, h4, a, v, rest, hinput, by omega⟩

/-- The offset of a store that reaches a configuration register. -/
theorem storeArrives_config (s : State) (k : Nat) (a : Word) (v : DWord)
    (h : (Touch.store a v).arrives k s)
    (hconfig : IsConfig (regAt (a.toNat - regBase (s.platform.focus k)))) :
    storeArrives s k 0x00 ∨ storeArrives s k 0x04 ∨ storeArrives s k 0x08 ∨ storeArrives s k 0x0C ∨
      storeArrives s k 0x20 := by
  obtain ⟨-, -, harr⟩ := storeArrives_offset s k a v h
  have hoff := regOffset_regAt (a.toNat - regBase (s.platform.focus k))
  obtain hr | hr | hr | hr | hr := hconfig
  all_goals
    rw [hr] at hoff
    rw [← hoff.resolve_left Reg.noConfusion] at harr
    simp only [regOffset] at harr
    simp [harr]

/-! ### The first of the instances -/

/-- Settles O31: the step leaves the block alone, or is its engine's turn, its reset or a register
write, each looked at for each flag. -/
theorem statusWrittenOnlyAsStated : Obligations.StatusWrittenOnlyAsStated := by
  intro s t h
  obtain hsame | ⟨c, harr, hrun⟩ := step_block_cases s t h
  · have hstatus : t.status = s.status := congrArg Block.status hsame
    simp [hstatus]
  cases c with
  | reset => exact ⟨fun _ => .inl harr, fun _ => .inl harr, fun _ => .inl harr⟩
  | engine =>
    refine ⟨fun hdone => .inr (.inr ?_), fun hovr => ?_, fun herr => ?_⟩
    · obtain ⟨hser, hlast, hset⟩ := engineStep_changes_done _ t hrun hdone
      exact ⟨hser, engineArrives_of_touch s 0 harr, hlast, hset⟩
    · exact absurd (engineStep_ovr _ t hrun) hovr
    · exact absurd (engineStep_err _ t hrun) herr
  | store a v =>
    refine ⟨fun hdone => .inr (.inl ?_), fun hovr => .inr ?_, fun herr => .inr ?_⟩
    · obtain ⟨hcmd, hidle, hclear⟩ := writeReg_changes_done_err _ _ _ t hrun (.inl hdone)
      exact ⟨hidle, storeArrives_cmd s a v harr hcmd, hclear⟩
    · obtain ⟨hcmd, hflag⟩ := writeReg_changes_ovr _ _ _ t hrun hovr
      have hstore := storeArrives_cmd s a v harr hcmd
      exact hflag.imp (fun ⟨hidle, hclear⟩ => ⟨hidle, hstore, hclear⟩)
        (fun ⟨hser, hset⟩ => ⟨hser, hstore, hset⟩)
    · obtain ⟨hcmd, hidle, -⟩ := writeReg_changes_done_err _ _ _ t hrun (.inr herr)
      exact ⟨hidle, storeArrives_cmd s a v harr hcmd⟩

/-- 42_host_commands.md R97, R91: what a step that is no reset leaves of the chain and the table base while
BUSY. -/
theorem step_busy_keeps_chain (s t : State) (h : step s = .next t) (hser : s.engine.phase = .ser) :
    resetArrives s 0 ∨ (t.chain = s.chain ∧ t.engine.serBase = s.engine.serBase) := by
  obtain hsame | ⟨c, harr, hrun⟩ := step_block_cases s t h
  · exact .inr ⟨congrArg Block.chain hsame, congrArg (fun b => b.engine.serBase) hsame⟩
  cases c with
  | reset => exact .inl harr
  | engine =>
    obtain ⟨-, -, -, -, -, -, hchain, hbase⟩ := engineStep_frame _ t hrun
    exact .inr ⟨hchain, hbase⟩
  | store a v =>
    obtain ⟨hchain, hengine⟩ := writeReg_keeps_chain_engine _ _ _ t hrun (.inr hser)
    exact .inr ⟨hchain, by rw [hengine]; rfl⟩

/-- 10_state.md R22, 42_host_commands.md R94: what a step that is neither a reset nor a write to CMD leaves
while idle. -/
theorem step_idle_keeps_chain_engine (s t : State) (h : step s = .next t)
    (hidle : s.engine.phase = .idle) :
    resetArrives s 0 ∨ storeArrives s 0 0x10 ∨ (t.chain = s.chain ∧ t.engine = s.engine) := by
  obtain hsame | ⟨c, harr, hrun⟩ := step_block_cases s t h
  · exact .inr (.inr ⟨congrArg Block.chain hsame, congrArg Block.engine hsame⟩)
  cases c with
  | reset => exact .inl harr
  | engine =>
    obtain rfl := engineStep_idle _ t hrun hidle
    exact .inr (.inr ⟨rfl, rfl⟩)
  | store a v =>
    by_cases hcmd : regAt (a.toNat - regBase s.platform) = .cmd
    · exact .inr (.inl (storeArrives_cmd s a v harr hcmd))
    · obtain ⟨hchain, hengine⟩ := writeReg_keeps_chain_engine _ _ _ t hrun (.inl hcmd)
      exact .inr (.inr ⟨hchain, hengine⟩)

/-- Settles O56: the held chain is a function of the chain state. -/
theorem chainAndEngineChangeOnlyByCommand : Obligations.ChainAndEngineChangeOnlyByCommand := by
  refine fun s t h => ⟨fun hser => ?_, fun hidle => ?_⟩
  · exact (step_busy_keeps_chain s t h hser).imp_right
      fun ⟨hchain, hbase⟩ => ⟨hchain, heldChain_congr s t hchain, hbase⟩
  · exact (step_idle_keeps_chain_engine s t h hidle).imp_right (Or.imp_right
      fun ⟨hchain, hengine⟩ => ⟨hchain, heldChain_congr s t hchain, hengine⟩)

/-! ### Any block -/

/-- 60_exceptions.md R119: what a step that touches block `k` leaves of the platform and of the other
instances. -/
theorem touch_frame (s u : State) (k : Nat) (c : Touch) (l : List Input) (hk : k < s.instances)
    (hrun : c.run ((s.withInputs l).focus k) = .next u) :
    (u.focus k).platform = s.platform ∧ (u.focus k).others.length = s.others.length ∧
    (u.focus k).blockAt k = some u.block ∧ ∀ j, j ≠ k → (u.focus k).blockAt j = s.blockAt j := by
  obtain ⟨hothers, hplatform, -, -⟩ := c.run_frame _ u hrun
  exact onInstance_frame k (s.withInputs l) u hk hothers hplatform

/-- 10_state.md R17: what changed the configuration registers of the block it reached. -/
theorem touch_changes_regs (s u : State) (k : Nat) (c : Touch) (l : List Input) (hk : k < s.instances)
    (harr : c.arrives k s) (hrun : c.run ((s.withInputs l).focus k) = .next u)
    (hchange : u.regs ≠ (s.focus k).regs) :
    resetArrives s k ∨ storeArrives s k 0x00 ∨ storeArrives s k 0x04 ∨ storeArrives s k 0x08 ∨
      storeArrives s k 0x0C ∨ storeArrives s k 0x20 := by
  rw [State.focus_withInputs] at hrun
  cases c with
  | reset => exact .inl harr
  | engine =>
    obtain ⟨-, -, -, -, -, hregs, -⟩ := engineStep_frame _ u hrun
    exact absurd hregs hchange
  | store a v =>
    refine .inr (storeArrives_config s k a v harr ?_)
    rw [← State.focus_platform s k hk]
    exact writeReg_changes_regs _ _ _ u hrun hchange

theorem touch_arrives (s : State) (k : Nat) (c : Touch) (harr : c.arrives k s) :
    engineArrives s k ∨ resetArrives s k ∨ ∃ off, off < 0x40 ∧ off % 4 = 0 ∧ storeArrives s k off := by
  cases c with
  | engine => exact .inl (engineArrives_of_touch s k harr)
  | reset => exact .inr (.inl harr)
  | store a v => exact .inr (.inr ⟨_, storeArrives_offset s k a v harr⟩)

/-- Settles O57: a step that touches block `k` leaves the others, any other step leaves all. -/
theorem onlyHostStoresChangeConfig : Obligations.OnlyHostStoresChangeConfig := by
  intro s t h
  obtain ⟨k, c, u, hk, harr, hrun, rfl⟩ | hother := step_cases s t h
  case inr =>
    have hframe : t.platform = s.platform ∧ t.instances = s.instances ∧
        ∀ j, t.blockAt j = s.blockAt j := by
      obtain ⟨a, z, v, rest, -, -, -, rfl⟩ | ⟨v, n, rfl⟩ := hother
      all_goals exact ⟨rfl, rfl, fun j => by cases j <;> rfl⟩
    obtain ⟨hplatform, hinstances, hblocks⟩ := hframe
    refine ⟨hplatform, hinstances, fun j b c hb hc hne => ?_, fun j hne => absurd (hblocks j) hne,
      fun i j hi => absurd (hblocks i) hi⟩
    rw [hblocks j, hb] at hc
    exact absurd (congrArg Block.regs (Option.some.inj hc).symm) hne
  obtain ⟨hplatform, hlen, hown, hframe⟩ := touch_frame s u k c _ hk hrun
  have only (j : Nat) (hne : (u.focus k).blockAt j ≠ s.blockAt j) : j = k :=
    not_imp_comm.mp (hframe j) hne
  refine ⟨hplatform, congrArg (· + 1) hlen, fun j b d hb hd hne => ?_, fun j hne => ?_,
    fun i j hi hj => (only i hi).trans (only j hj).symm⟩
  · have hdiffer : (u.focus k).blockAt j ≠ s.blockAt j := by
      rw [hb, hd]
      exact fun he => hne (congrArg Block.regs (Option.some.inj he))
    obtain rfl := only j hdiffer
    obtain rfl : u.block = d := Option.some.inj (hown.symm.trans hd)
    refine touch_changes_regs s u j c _ hk harr hrun ?_
    have hfront := State.focus_block s j b hb
    exact fun he => hne (he.trans (congrArg Block.regs hfront))
  · obtain rfl := only j hne
    exact touch_arrives s j c harr

/-! ### Memory -/

/-- 20_memory.md R32, 70_reset_and_hazards.md R122: what a touch can leave in memory. -/
theorem touch_mem_cases (c : Touch) (s u : State) (h : c.run s = .next u) :
    u.mem = s.mem ∨ ∃ a r, engineTurn s = .write a r ∧ (c = .engine ∨ c = .reset) ∧
      (u.mem = memWrite s.mem a Config.recSize (rec64 r).toNat ∨
        ∃ mask, u.mem = memPutMasked mask s.mem a 0 (formatRecord r)) := by
  cases c with
  | engine =>
    obtain rfl | ⟨a, r, hw, rfl⟩ := engineStep_cases s u h
    · exact .inl rfl
    · exact .inr ⟨a, r, hw, .inl rfl, .inl (advanceEngine_mem _)⟩
  | reset =>
    obtain rfl := Host.Outcome.next.inj h
    obtain hm | ⟨a, r, hw, hm⟩ := memAfterReset_cases s
    · exact .inl hm
    · exact .inr ⟨a, r, hw, .inr rfl, .inr ⟨_, hm⟩⟩
  | store a v =>
    obtain ⟨-, -, hmem, -⟩ := writeReg_outside _ _ s u h
    exact .inl hmem

theorem touch_mem_changes (c : Touch) (s u : State) (x : Nat) (h : c.run s = .next u)
    (hchange : memGet u.mem x ≠ memGet s.mem x) :
    (c = .engine ∨ c = .reset) ∧
    ∃ a r, engineTurn s = .write a r ∧ a ≤ x ∧ x < a + Config.recSize := by
  obtain hm | ⟨a, r, hw, hc, hm⟩ := touch_mem_cases c s u h
  · exact absurd (by rw [hm]) hchange
  refine ⟨hc, a, r, hw, ?_⟩
  by_contra hout
  have hout : x < a ∨ a + Config.recSize ≤ x := by omega
  refine hchange ?_
  obtain hm | ⟨mask, hm⟩ := hm
  · rw [hm, memGet_memWrite_outside _ _ _ _ _ hout]
  · rw [hm, memGet_memPutMasked_outside _ _ _ _ _ _ (by rwa [formatRecord_length])]

theorem touch_mem_wf (c : Touch) (s u : State) (h : c.run s = .next u) (hwf : Memory.wf s.mem) :
    Memory.wf u.mem := by
  obtain hm | ⟨a, r, hw, -, hm⟩ := touch_mem_cases c s u h
  · rwa [hm]
  obtain ⟨-, -, -, -, hadmits⟩ := engineTurn_write s a r hw
  have hfits : a + Config.recSize ≤ Config.addrSpace :=
    of_decide_eq_true (Bool.and_eq_true_iff.mp hadmits).1
  obtain hm | ⟨mask, hm⟩ := hm
  · exact hm ▸ memWrite_wf _ _ _ _ hfits hwf
  · exact hm ▸ memPutMasked_wf _ _ _ _ _ (by rwa [formatRecord_length]) hwf

/-- Settles O58: a touch changes a byte only in the record of the block it reaches. -/
theorem onlyEngineAndAgentsWriteMemory : Obligations.OnlyEngineAndAgentsWriteMemory := by
  intro s t x h hchange
  obtain ⟨k, c, u, hk, harr, hrun, rfl⟩ | ⟨a, z, v, rest, hinput, htouch, -, rfl⟩ | ⟨v, n, rfl⟩ :=
    step_cases s t h
  · left
    rw [State.focus_withInputs] at hrun
    rw [State.focus_mem, ← State.focus_mem s k] at hchange
    obtain ⟨hc, a, r, hw, hle, hlt⟩ := touch_mem_changes c _ u x hrun hchange
    obtain ⟨hser, rfl, -⟩ := engineTurn_write_inside (s.focus k) a r hw
    refine ⟨k, hk, hser, ?_, hle, hlt⟩
    obtain rfl | rfl := hc
    · exact .inl (engineArrives_of_touch s k harr)
    · exact .inr harr
  · refine .inr ⟨a, z, v, rest, hinput, htouch, ?_⟩
    by_contra hout
    exact hchange (memGet_memWrite_outside _ _ _ _ _ (by omega))
  · exact absurd rfl hchange

end Sys2Proof.Proofs
end

section
/-! The invariant (10_state.md R21, R23, R24) through a command, a register write, the engine's turn, a
reset and a whole step. -/

namespace Sys2Proof.Proofs

open Sys2Proof.Machine

/-! ### The commands -/

/-- 42_host_commands.md R91: what a command's body starts from: idle, with the status cleared. -/
def Ready (s : State) : Prop := ChainOk s.chain ∧ s.engine.phase = .idle ∧ s.status = Status.clear

theorem ready_clearStatus (s : State) (hok : ChainOk s.chain) (hidle : s.engine.phase = .idle) :
    Ready (clearStatus s) := ⟨hok, hidle, rfl⟩

/-- An idle block that has not set DONE needs no more than its chain's invariant. -/
theorem blockOk_of_idle (b : Block) (hok : ChainOk b.chain) (hidle : b.engine.phase = .idle)
    (hdone : b.status.done = false) : BlockOk b :=
  ⟨hok, engineOk_of_idle b hidle, doneOk_of_not_done b hdone⟩

theorem raiseErr_blockOk (c : ErrCode) (s : State) (h : Ready s) : BlockOk (raiseErr c s).state.block := by
  obtain ⟨hok, hidle, hclear⟩ := h
  exact blockOk_of_idle _ hok hidle (by simp [hclear, Status.clear])

/-- 42_host_commands.md R93: BUILD leaves no chain or that of a legal request. -/
theorem buildBody_chainOk (s : State) : ChainOk (buildBody s).state.chain := by
  obtain ⟨-, h⟩ | ⟨-, -, h⟩ | ⟨hlen, hfits, h⟩ := buildBody_cases s
  · rw [h]; exact chainOk_empty
  · rw [h]; exact chainOk_empty
  · rw [h]; exact latchChain_ok _ _ (Nat.one_le_iff_ne_zero.mpr hlen) hfits

theorem buildBody_blockOk (s : State) (h : Ready s) : BlockOk (buildBody s).state.block := by
  obtain ⟨-, hidle, hclear⟩ := h
  obtain ⟨e, hstatus⟩ := buildBody_status s
  refine blockOk_of_idle _ (buildBody_chainOk s) ?_ ?_
  · rw [State.block_engine, (buildBody_frame s).2, hidle]
  · rw [State.block_status, hstatus, hclear]; rfl

/-- 42_host_commands.md R94: the checks of SERIALIZE are the engine's invariant at its start. -/
theorem serializeBody_blockOk (s : State) (h : Ready s) : BlockOk (serializeBody s).state.block := by
  obtain ⟨-, hb⟩ | ⟨-, -, hb⟩ | ⟨-, -, -, hb⟩ | ⟨-, -, -, -, hb⟩ | ⟨hvalid, halign, -, hfits, hb⟩ :=
    serializeBody_cases s
  case inr.inr.inr.inr =>
    obtain ⟨hok, -, hclear⟩ := h
    have hdone : s.status.done = false := by rw [hclear]; rfl
    have herr : s.status.err = .none := by rw [hclear]; rfl
    rw [hb]
    exact ⟨hok, fun _ => ⟨hvalid, chainOk_count_pos _ hok hvalid, rfl, halign, hfits, hdone, herr⟩,
      doneOk_of_not_done _ hdone⟩
  all_goals rw [hb]; exact raiseErr_blockOk _ s h

theorem buildSerializeBody_blockOk (s : State) (h : Ready s) :
    BlockOk (buildSerializeBody s).state.block := by
  have ⟨_, hidle, hclear⟩ := h
  rw [buildSerializeBody_eq s (by rw [hclear]; rfl)]
  split
  case isFalse => exact buildBody_blockOk s h
  case isTrue hnone =>
    obtain ⟨e, hstatus⟩ := buildBody_status s
    refine serializeBody_blockOk _ ⟨buildBody_chainOk s, by rw [(buildBody_frame s).2, hidle], ?_⟩
    rw [hstatus] at hnone ⊢
    obtain rfl : e = .none := hnone
    rw [hclear]
    rfl

theorem bodyOf_blockOk (i : Instr) (s : State) (h : Ready s) : BlockOk (bodyOf i s).state.block := by
  have ⟨hok, hidle, hclear⟩ := h
  have hdone : s.status.done = false := by rw [hclear]; rfl
  cases i with
  | nop => exact blockOk_of_idle _ hok hidle hdone
  | build => exact buildBody_blockOk s h
  | serialize => exact serializeBody_blockOk s h
  | buildSerialize => exact buildSerializeBody_blockOk s h
  | discard => exact blockOk_of_idle _ chainOk_empty hidle hdone

/-- A configuration register and OVR are no part of the invariant. -/
theorem writeReg_blockOk (r : Reg) (v : Word) (s t : State) (hok : BlockOk s.block)
    (h : writeReg r v s = .next t) : BlockOk t.block := by
  obtain ⟨-, rfl⟩ | ⟨-, -, rfl⟩ | ⟨-, hidle, hacc⟩ := writeReg_next_cases r v s t h
  · exact hok
  · exact hok
  · have hready := ready_clearStatus s hok.1 hidle
    obtain ⟨i, rfl⟩ | rfl := hacc
    · exact bodyOf_blockOk i _ hready
    · exact raiseErr_blockOk _ _ hready

/-! ### The engine's turn -/

/-- 10_state.md R23: neither SER_IDX nor BYTES_OUT wraps when a record is written. -/
theorem advanceEngine_counts (s : State) (r : Record) (hr : recordAt s s.engine.serIdx.toNat = some r) :
    (advanceEngine s).engine.serIdx.toNat = s.engine.serIdx.toNat + 1 ∧
    (advanceEngine s).engine.bytesOut.toNat = Config.recSize * (s.engine.serIdx.toNat + 1) := by
  have hbytes := recordAt_bytes_lt s _ r hr
  simp only [Config.recSize, Config.addrSpace] at hbytes
  simp only [advanceEngine_serIdx, advanceEngine_bytesOut, BitVec.toNat_ofNat, Config.recSize]
  omega

/-- 42_host_commands.md R97: a record further on, or done. -/
theorem advanceEngine_blockOk (s : State) (r : Record) (hok : BlockOk s.block)
    (hser : s.engine.phase = .ser) (hr : recordAt s s.engine.serIdx.toNat = some r) :
    BlockOk (advanceEngine s).block := by
  obtain ⟨hchain, hengine, -⟩ := hok
  obtain ⟨hvalid, hlt, -, halign, hfits, hdone, herr⟩ := hengine hser
  simp only [State.block_engine, State.block_chain, State.block_status]
    at hvalid hlt halign hfits hdone herr
  obtain ⟨hidx, hbytes⟩ := advanceEngine_counts s r hr
  have hchain' : ChainOk (advanceEngine s).block.chain := by
    rw [State.block_chain, advanceEngine_chain]; exact hchain
  by_cases hlast : s.engine.serIdx.toNat + 1 = s.chain.count.toNat
  · obtain ⟨hidle, -⟩ := advanceEngine_last s hlast
    refine ⟨hchain', engineOk_of_idle _ hidle, fun _ => ⟨hidle, ?_, ?_, ?_, ?_⟩⟩
    · simpa using herr
    · simpa using hvalid
    · refine BitVec.eq_of_toNat_eq ?_
      rw [State.block_engine, hidx, hlast, State.block_chain, advanceEngine_chain]
    · rw [State.block_engine, hbytes, hlast, State.block_chain, advanceEngine_chain]
  · obtain ⟨-, hstatus⟩ := advanceEngine_notLast s hlast
    refine ⟨hchain', fun _ => ?_, doneOk_of_not_done _ (by rw [State.block_status, hstatus, hdone])⟩
    simp only [State.block_engine, State.block_chain, State.block_status, hstatus, hidx, hbytes,
      advanceEngine_chain, advanceEngine_serBase]
    exact ⟨hvalid, by omega, trivial, halign, hfits, hdone, herr⟩

theorem engineStep_blockOk (s t : State) (hok : BlockOk s.block) (h : engineStep s = .next t) :
    BlockOk t.block := by
  obtain rfl | ⟨a, r, hw, rfl⟩ := engineStep_cases s t h
  · exact hok
  · obtain ⟨hser, hr, -⟩ := engineTurn_write s a r hw
    exact advanceEngine_blockOk (s.withMem _) r hok hser hr

/-! ### The step -/

theorem touch_blockOk (c : Touch) (s t : State) (hok : BlockOk s.block) (h : c.run s = .next t) :
    BlockOk t.block := by
  cases c with
  | engine => exact engineStep_blockOk s t hok h
  | reset =>
    obtain rfl := Host.Outcome.next.inj h
    exact blockOk_reset
  | store a v => exact writeReg_blockOk _ _ s t hok h

/-- The invariant, block by block. -/
theorem inv_iff (s : State) : Inv s ↔
    (∀ k b, s.blockAt k = some b → BlockOk b) ∧
    s.others.length = s.platform.otherPages.length ∧ Memory.wf s.mem := by
  constructor
  · rintro ⟨hown, hothers, hlen, hwf⟩
    refine ⟨fun k b hb => ?_, hlen, hwf⟩
    cases k with
    | zero => exact Option.some.inj hb ▸ hown
    | succ k => exact hothers b (List.mem_of_getElem? hb)
  · rintro ⟨hblocks, hlen, hwf⟩
    refine ⟨hblocks 0 _ rfl, fun b hb => ?_, hlen, hwf⟩
    obtain ⟨k, hk⟩ := List.mem_iff_getElem?.mp hb
    exact hblocks (k + 1) b hk

theorem inv_focus_block (s : State) (k : Nat) (hinv : Inv s) (hk : k < s.instances) :
    BlockOk (s.focus k).block := by
  obtain ⟨b, hb⟩ := Option.isSome_iff_exists.mp ((s.blockAt_isSome k).mpr hk)
  rw [s.focus_block k b hb]
  exact ((inv_iff s).mp hinv).1 k b hb

/-- Settles O53: the block a step touches keeps its invariant, the others are framed, and every write
to memory keeps the canonical form. -/
theorem everyStepKeepsTheInvariant : Obligations.EveryStepKeepsTheInvariant := by
  intro s t hinv h
  obtain ⟨hblocks, hlen, hwf⟩ := (inv_iff s).mp hinv
  obtain ⟨k, c, u, hk, -, hrun, rfl⟩ | ⟨a, z, v, rest, -, -, hadmits, rfl⟩ | ⟨v, n, rfl⟩ :=
    step_cases s t h
  · obtain ⟨hplatform, hothers, hown, hframe⟩ := touch_frame s u k c _ hk hrun
    rw [State.focus_withInputs] at hrun
    refine (inv_iff _).mpr ⟨fun j b hb => ?_, by rw [hplatform, hothers, hlen], ?_⟩
    · obtain rfl | hj := eq_or_ne j k
      · obtain rfl : u.block = b := Option.some.inj (hown.symm.trans hb)
        exact touch_blockOk c ((s.focus j).withInputs s.inputs.tail) u (inv_focus_block s j hinv hk)
          hrun
      · exact hblocks j b ((hframe j hj).symm.trans hb)
    · rw [State.focus_mem]
      exact touch_mem_wf c _ u hrun (by rw [State.withInputs_mem, State.focus_mem]; exact hwf)
  · obtain ⟨hown, hothers, -, -⟩ := hinv
    have hfits : a.toNat + z.bytes ≤ Config.addrSpace :=
      of_decide_eq_true (Bool.and_eq_true_iff.mp hadmits).1
    exact ⟨hown, hothers, hlen, memWrite_wf _ _ _ _ hfits hwf⟩
  · exact hinv

end Sys2Proof.Proofs
end

section
/-! The engine's turn (42_host_commands.md R97) as a step of block 0, the table it leaves in memory
(20_memory.md R43), and a reset that meets it (70_reset_and_hazards.md R122). -/

namespace Sys2Proof.Proofs

open Sys2Proof.Machine

/-! ### Whose turn it is -/

/-- 70_reset_and_hazards.md R132: block 0's engine moves, or has nothing to do. -/
theorem step_engineArrives (s : State) (harr : engineArrives s 0) (hcan : canStep s = true) :
    step s = engineStep (s.withInputs s.inputs.tail) := by
  obtain hnil | hinput := harr
  · exact step_engine s (.inl ⟨hnil, hcan⟩)
  · exact step_engine s (.inr hinput)

theorem canStep_of_turn (s : State) (h : engineTurn s = .overlapsWindow) : canStep s = true := by
  simp [canStep, h]

theorem engineStep_of_write (s : State) (a : Nat) (r : Record) (h : engineTurn s = .write a r) :
    engineStep s = .next (advanceEngine (s.withMem (memWrite s.mem a Config.recSize (rec64 r).toNat))) := by
  simp only [engineStep, h]

/-- 41_record_serializer.md R80: what `MemWrite` of Rec64 leaves at the record's address. -/
theorem memWrite_record (m : Memory) (a : Nat) (r : Record) :
    HoldsBytes (memWrite m a Config.recSize (rec64 r).toNat) a (formatRecord r) := by
  intro j hj
  have hj : j < Config.recSize := by rwa [formatRecord_length] at hj
  rw [memGet_memWrite_inside _ _ _ _ _ hj]
  exact congrArg (·[j]?)
    (leBytes_eq_of_fromLE 8 _ _ (formatRecord_length r) (fromLE_formatRecord r))

/-- Settles O44: the engine is enabled, so it moves; the write holds the record and frames the rest. -/
theorem engineWritesOneRecord : Obligations.EngineWritesOneRecord := by
  intro s r harr hser hr hwindow hadmits
  have hturn := engineTurn_of_write s r hser hr hwindow hadmits
  have hnext := (step_engineArrives s harr (canStep_of_write s _ r hturn)).trans
    (engineStep_of_write (s.withInputs s.inputs.tail) _ r hturn)
  generalize hm : memWrite (s.withInputs s.inputs.tail).mem (nextRecordAddr s) Config.recSize
    (rec64 r).toNat = m at hnext
  obtain ⟨hidx, hbytes⟩ := advanceEngine_counts ((s.withInputs s.inputs.tail).withMem m) r hr
  refine ⟨_, hnext, ?held, fun x hx => ?frame, hidx, hbytes, by simp, fun hlast => ?last,
    fun hmid => ?notLast, by simp⟩
  case held =>
    rw [advanceEngine_mem, State.withMem_mem, ← hm]
    exact memWrite_record _ _ r
  case frame =>
    rw [advanceEngine_mem, State.withMem_mem, ← hm]
    exact memGet_memWrite_outside _ _ _ _ _ hx
  case last =>
    obtain ⟨hidle, hstatus⟩ := advanceEngine_last ((s.withInputs s.inputs.tail).withMem m) hlast
    exact ⟨hidle, by rw [hstatus]⟩
  case notLast =>
    obtain ⟨hphase, hstatus⟩ := advanceEngine_notLast ((s.withInputs s.inputs.tail).withMem m) hmid
    exact ⟨hphase.trans hser, by rw [hstatus]; rfl⟩

/-- 93_implementation_defined.md, log 6: an engine that has no step lets its turn pass. -/
theorem engineStep_of_not_canStep (s : State) (h : canStep s = false) : engineStep s = .next s := by
  cases hturn : engineTurn s
  case overlapsWindow | write => simp [canStep, hturn] at h
  all_goals simp only [engineStep, hturn]

/-- The block brought to the front is one of the others. -/
theorem focus_succ_block_mem (s : State) (k : Nat) (hk : k + 1 < s.instances) :
    (s.focus (k + 1)).block ∈ s.others := by
  have hk' : k < s.others.length := Nat.lt_of_succ_lt_succ hk
  rw [s.focus_block (k + 1) s.others[k] (List.getElem?_eq_getElem hk')]
  exact List.getElem_mem hk'

/-- With no other block BUSY, the step passes when block 0's engine has none. -/
theorem step_of_not_canStep (s : State) (hcan : canStep s = false)
    (harr : (∃ rest, s.inputs = .engine 0 :: rest) ∨
      (s.inputs = [] ∧ ∀ b ∈ s.others, b.engine.phase = .idle)) :
    step s = .next (s.withInputs s.inputs.tail) := by
  obtain hinput | ⟨hnil, hidle⟩ := harr
  · rw [step_engine s (.inr hinput)]
    exact engineStep_of_not_canStep (s.withInputs s.inputs.tail) hcan
  · have hnone : engineMove s = .next s := by
      refine engineMove_none s fun k hk => ?_
      cases k with
      | zero => exact hcan
      | succ k => exact canStep_idle _ (hidle _ (focus_succ_block_mem s k hk))
    rw [step_empty s hnil, hnone, hnil, List.tail_nil, ← hnil]
    rfl

/-- 42_host_commands.md R97: where memory refuses the write the engine has no step. -/
theorem canStep_of_not_admits (s : State) (hser : s.engine.phase = .ser)
    (hwindow : touchesAnyWindow s.platform s.engine.serBase.toNat
      (Config.recSize * s.chain.count.toNat) = false)
    (hadmits : admitsStore s.platform (nextRecordAddr s) Config.recSize = false) :
    canStep s = false := by
  cases hr : recordAt s s.engine.serIdx.toNat <;> simp [canStep, engineTurn, hser, hr, hwindow, hadmits]

/-- Settles O45: in both cases the engine has no step. -/
theorem disabledOrStuckEngineChangesNothing : Obligations.DisabledOrStuckEngineChangesNothing := by
  refine fun s harr => ⟨fun hidle => ?_, fun hser hwindow hadmits => ?_⟩
  · exact step_of_not_canStep s (canStep_idle s hidle) harr
  · exact step_of_not_canStep s (canStep_of_not_admits s hser hwindow hadmits) harr

/-- Settles O46: the invariant gives the record, so the turn gets to the test of the window. -/
theorem tableOverWindowRefused : Obligations.TableOverWindowRefused := by
  rintro s ⟨⟨hchain, hengine, -⟩, -⟩ harr hser hwindow
  obtain ⟨hvalid, hlt, -⟩ := hengine hser
  obtain ⟨r, hr⟩ := exists_recordAt s s.engine.serIdx.toNat hchain hvalid hlt
  have hturn : engineTurn s = .overlapsWindow := by
    simp only [engineTurn, hser, hr]
    exact if_pos hwindow
  rw [step_engineArrives s harr (canStep_of_turn s hturn), engineStep, engineTurn_withInputs, hturn]

/-! ### The table in memory -/

/-- The table of a block that a step leaves as it was stays where no byte of it changes. -/
theorem tableInMemory_frame (s t : State) (hok : ChainOk s.chain) (hchain : t.chain = s.chain)
    (hengine : t.engine = s.engine) (hdone : t.status.done = s.status.done)
    (hmem : ∀ x, s.engine.serBase.toNat ≤ x →
      x < s.engine.serBase.toNat + Config.recSize * s.chain.count.toNat → memGet t.mem x = memGet s.mem x)
    (h : TableInMemory s) : TableInMemory t := by
  obtain ⟨hpart, hwhole⟩ := h
  have hlen := table_length s hok
  rw [TableInMemory, hengine, hdone, table_congr s t hchain]
  refine ⟨fun hser => (hpart hser).frame _ _ _ _ fun x hle hlt => hmem x hle ?_,
    fun hset => (hwhole hset).frame _ _ _ _ fun x hle hlt => hmem x hle (by omega)⟩
  have hpre := (table s).length_take_le' (Config.recSize * s.engine.serIdx.toNat)
  omega

/-- 42_host_commands.md R94: nothing is claimed of a serialization that has just started. -/
theorem tableInMemory_of_start (s : State) (hidx : s.engine.phase = .ser → s.engine.serIdx = 0)
    (hdone : s.status.done = false) : TableInMemory s := by
  refine ⟨fun hser j hj => ?_, fun hset => ?_⟩
  · rw [hidx hser] at hj
    simp at hj
  · rw [hdone] at hset
    cases hset

/-- 42_host_commands.md R94: a command leaves the engine or starts it. -/
theorem bodyOf_engine_cases (i : Instr) (s : State) :
    (bodyOf i s).state.engine = s.engine ∨ (bodyOf i s).state.engine = ⟨.ser, 0, s.regs.tblBase, 0⟩ := by
  have hserialize (u : State) : (serializeBody u).state.engine = u.engine ∨
      (serializeBody u).state.engine = ⟨.ser, 0, u.regs.tblBase, 0⟩ := by
    obtain ⟨-, h⟩ | ⟨-, -, h⟩ | ⟨-, -, -, h⟩ | ⟨-, -, -, -, h⟩ | ⟨-, -, -, -, h⟩ :=
      serializeBody_cases u
    case inr.inr.inr.inr => rw [h]; exact .inr rfl
    all_goals rw [h]; exact .inl rfl
  obtain ⟨hregs, hengine⟩ := buildBody_frame s
  cases i with
  | nop => exact .inl rfl
  | build => exact .inl hengine
  | serialize => exact hserialize s
  | buildSerialize =>
    obtain ⟨u, hb, hbs⟩ | ⟨u, hb, hbs⟩ := buildSerializeBody_cases s
    all_goals rw [hb] at hregs hengine; rw [bodyOf, hbs]
    · exact .inl hengine
    · rw [← hregs, ← hengine]
      exact hserialize u
  | discard => exact .inl rfl

theorem accepted_serIdx (s t : State) (h : Accepted s t) (hidle : s.engine.phase = .idle)
    (hser : t.engine.phase = .ser) : t.engine.serIdx = 0 := by
  have hcases : t.engine = s.engine ∨ t.engine = ⟨.ser, 0, s.regs.tblBase, 0⟩ := by
    obtain ⟨i, rfl⟩ | rfl := h
    · exact bodyOf_engine_cases i (clearStatus s)
    · exact .inl rfl
  obtain he | he := hcases
  · rw [he, hidle] at hser
    cases hser
  · rw [he]

theorem writeReg_tableInMemory (r : Reg) (v : Word) (s t : State) (htable : TableInMemory s)
    (h : writeReg r v s = .next t) : TableInMemory t := by
  obtain ⟨-, rfl⟩ | ⟨-, -, rfl⟩ | ⟨-, hidle, hacc⟩ := writeReg_next_cases r v s t h
  · exact htable
  · exact htable
  · obtain ⟨e, hstatus⟩ := accepted_status s t hacc
    exact tableInMemory_of_start t (accepted_serIdx s t hacc hidle) (by rw [hstatus])

theorem completedBytes_length (s : State) (i : Nat) (r : Record) (hr : recordAt s i = some r) :
    ((table s).take (Config.recSize * i)).length = Config.recSize * i := by
  obtain ⟨-, -, hget⟩ := recordAt_lt s i r hr
  have hi := (List.getElem?_eq_some_iff.mp hget).1
  refine List.length_take_of_le ?_
  rw [table, serializedLength, Config.recSize]
  omega

/-- 42_host_commands.md R97: the record written follows the completed ones. -/
theorem memWrite_extends_table (s : State) (a : Nat) (r : Record) (hturn : engineTurn s = .write a r)
    (hheld : HoldsBytes s.mem s.engine.serBase.toNat
      ((table s).take (Config.recSize * s.engine.serIdx.toNat))) :
    HoldsBytes (memWrite s.mem a Config.recSize (rec64 r).toNat) s.engine.serBase.toNat
      ((table s).take (Config.recSize * (s.engine.serIdx.toNat + 1))) := by
  obtain ⟨-, hr, rfl, -, -⟩ := engineTurn_write s a r hturn
  obtain ⟨-, -, hget⟩ := recordAt_lt s _ r hr
  have hlen := completedBytes_length s _ r hr
  rw [table, serialize_take_succ _ _ r hget]
  refine HoldsBytes.append _ _ _ _ (hheld.frame _ _ _ _ fun x hle hlt => ?_) ?_
  · exact memGet_memWrite_outside _ _ _ _ _ (.inl (by rw [hlen] at hlt; exact hlt))
  · rw [← table, hlen]
    exact memWrite_record _ _ r

/-- 20_memory.md R43: the engine's own turn adds a record to the table, the last one completes it. -/
theorem engineStep_tableInMemory (s t : State) (hok : BlockOk s.block) (htable : TableInMemory s)
    (h : engineStep s = .next t) : TableInMemory t := by
  obtain rfl | ⟨a, r, hturn, rfl⟩ := engineStep_cases s t h
  · exact htable
  obtain ⟨hser, hr, -⟩ := engineTurn_write s a r hturn
  obtain ⟨hchain, hengine, -⟩ := hok
  obtain ⟨-, -, -, -, -, hdone, -⟩ := hengine hser
  have hmore := memWrite_extends_table s a r hturn (htable.1 hser)
  generalize hm : memWrite s.mem a Config.recSize (rec64 r).toNat = m at hmore ⊢
  obtain ⟨hidx, -⟩ := advanceEngine_counts (s.withMem m) r hr
  have hsame : table (advanceEngine (s.withMem m)) = table s := table_congr _ _ (advanceEngine_chain _)
  rw [TableInMemory, hsame, hidx, advanceEngine_serBase, advanceEngine_mem]
  by_cases hlast : s.engine.serIdx.toNat + 1 = s.chain.count.toNat
  · obtain ⟨hidle, -⟩ := advanceEngine_last (s.withMem m) hlast
    refine ⟨fun hser' => ?_, fun _ => ?_⟩
    · rw [hidle] at hser'
      cases hser'
    · rwa [hlast, ← table_length s hchain, List.take_length] at hmore
  · obtain ⟨-, hstatus⟩ := advanceEngine_notLast (s.withMem m) hlast
    refine ⟨fun _ => hmore, fun hset => ?_⟩
    rw [hstatus] at hset
    exact absurd (hset.symm.trans hdone) Bool.noConfusion

/-- Block 0's own turn, reset or register write keeps what its table is owed. -/
theorem touch_tableInMemory (c : Touch) (s t : State) (hok : BlockOk s.block) (htable : TableInMemory s)
    (h : c.run s = .next t) : TableInMemory t := by
  cases c with
  | engine => exact engineStep_tableInMemory s t hok htable h
  | reset =>
    obtain rfl := Host.Outcome.next.inj h
    exact tableInMemory_of_idle _ rfl rfl
  | store a v => exact writeReg_tableInMemory _ _ s t htable h

/-- 70_reset_and_hazards.md R127: the record another block is writing is clear of the table. -/
theorem otherRecord_clear_of_table (s : State) (k a : Nat) (r : Record) (hdisjoint : TablesDisjoint s)
    (hk : k + 1 < s.instances) (hturn : engineTurn (s.focus (k + 1)) = .write a r) :
    a + Config.recSize ≤ s.engine.serBase.toNat ∨
      s.engine.serBase.toNat + Config.recSize * s.chain.count.toNat ≤ a := by
  obtain ⟨hser, ha, hinside⟩ := engineTurn_write_inside _ a r hturn
  have hclear := hdisjoint _ (focus_succ_block_mem s k hk) hser
  simp only [State.block_engine, State.block_chain] at hclear
  omega

/-- Settles O54: block 0's own touch by kind, another block's by disjointness, an agent's store by
the hypothesis on it. -/
theorem everyStepKeepsTheTable : Obligations.EveryStepKeepsTheTable := by
  intro s t hinv htable hdisjoint h hstores
  obtain ⟨hok, -⟩ := hinv
  obtain ⟨k, c, u, hk, -, hrun, rfl⟩ | ⟨a, z, v, rest, hinput, -, -, rfl⟩ | ⟨v, n, rfl⟩ :=
    step_cases s t h
  · cases k with
    | zero => exact touch_tableInMemory c (s.withInputs s.inputs.tail) u hok htable hrun
    | succ k =>
      obtain ⟨-, -, -, hframe⟩ := touch_frame s u (k + 1) c _ hk hrun
      have hblock : (u.focus (k + 1)).block = s.block :=
        Option.some.inj (hframe 0 k.succ_ne_zero.symm)
      refine tableInMemory_frame s _ hok.1 (congrArg Block.chain hblock) (congrArg Block.engine hblock)
        (congrArg (fun b => b.status.done) hblock) (fun x hle hlt => ?_) htable
      rw [State.focus_withInputs] at hrun
      rw [State.focus_mem, ← State.focus_mem s (k + 1)]
      by_contra hchange
      obtain ⟨-, a, r, hturn, hle', hlt'⟩ := touch_mem_changes c _ u x hrun hchange
      have hclear := otherRecord_clear_of_table s k a r hdisjoint hk hturn
      omega
  · have hclear := hstores _ rest hinput
    simp only [storesToTable, not_and_or, Nat.not_lt] at hclear
    refine tableInMemory_frame s _ hok.1 rfl rfl rfl (fun x hle hlt => ?_) htable
    exact memGet_memWrite_outside _ _ _ _ _ (by omega)
  · exact htable

/-! ### Reset -/

/-- Settles O48: the masked write meets only the record in flight, above the completed ones. -/
theorem resetDuringSerialization : Obligations.ResetDuringSerialization := by
  intro s rest hinv htable hser hinput
  have hheld := htable.1 hser
  refine ⟨_, step_reset s rest hinput, rfl, rfl, rfl, rfl, rfl, rfl, rfl, ?_⟩
  rw [resetBlock_mem]
  obtain hm | ⟨a, r, hturn, hm⟩ := memAfterReset_cases (s.withInputs rest)
  · rw [hm]
    exact ⟨hheld, fun x => .inl rfl⟩
  obtain ⟨-, hr, ha, -, -⟩ := engineTurn_write s a r hturn
  obtain ⟨-, -, hget⟩ := recordAt_lt s _ r hr
  have ha : a = s.engine.serBase.toNat + 8 * s.engine.serIdx.toNat := ha
  have hlen := completedBytes_length s _ r hr
  rw [hm]
  refine ⟨hheld.frame _ _ _ _ fun x _ hlt => ?below, fun x => ?byte⟩
  case below =>
    rw [hlen] at hlt
    exact memGet_memPutMasked_outside _ _ _ _ _ _ (.inl (ha ▸ hlt))
  case byte =>
    by_cases hin : a ≤ x ∧ x < a + 8
    · obtain ⟨k, rfl⟩ := Nat.exists_eq_add_of_le hin.1
      have hk : k < 8 := by omega
      refine (memGet_memPutMasked_inside _ _ a 0 k (formatRecord r) hk).symm.imp id fun hnew => ?_
      exact ⟨k, hk, by rw [ha], hnew.trans (serialize_record_byte _ _ k r hget hk).symm⟩
    · refine .inl (memGet_memPutMasked_outside _ _ _ _ _ _ ?_)
      rw [formatRecord_length]
      omega

end Sys2Proof.Proofs
end

section
/-! What an agent's load of memory meets (20_memory.md R34, R39, R43): memory, byte by byte, except where a
record is in flight; and the accesses that fault (logs 4 and 5). -/

namespace Sys2Proof.Proofs

open Sys2Proof.Machine

/-! ### Parts of a range of addresses -/

theorem touchesAnyWindow_part (p : Platform) (a n b m : Nat) (hle : a ≤ b) (hend : b + m ≤ a + n)
    (h : touchesAnyWindow p a n = false) : touchesAnyWindow p b m = false := by
  simp only [touchesAnyWindow, List.any_eq_false, touchesPage, decide_eq_true_eq] at h ⊢
  exact fun q hq hb => h q hq (by omega)

theorem region_misses_part (g : Region) (a n b m : Nat) (hle : a ≤ b) (hend : b + m ≤ a + n)
    (h : g.misses a n = true) : g.misses b m = true := by
  simp only [Region.misses, decide_eq_true_eq] at h ⊢
  omega

theorem admitsStore_part (p : Platform) (a n b m : Nat) (hle : a ≤ b) (hend : b + m ≤ a + n)
    (h : admitsStore p a n = true) : admitsStore p b m = true := by
  simp only [admitsStore, Bool.and_eq_true, decide_eq_true_eq, List.all_eq_true] at h ⊢
  exact ⟨by omega, fun g hg => region_misses_part g a n b m hle hend (h.2 g hg)⟩

theorem admitsLoad_part (p : Platform) (a n b m : Nat) (hle : a ≤ b) (hend : b + m ≤ a + n)
    (h : admitsLoad p a n = true) : admitsLoad p b m = true := by
  simp only [admitsLoad, Bool.and_eq_true, Bool.or_eq_true, decide_eq_true_eq, List.all_eq_true] at h ⊢
  exact ⟨by omega, fun g hg => (h.2 g hg).imp_right (region_misses_part g a n b m hle hend)⟩

theorem holdsBytes_of_append (m : Memory) (a : Nat) (xs ys : List Byte) (h : HoldsBytes m a (xs ++ ys)) :
    HoldsBytes m a xs ∧ HoldsBytes m (a + xs.length) ys := by
  constructor
  · intro j hj
    rw [h j (by rw [List.length_append]; omega), List.getElem?_append_left hj]
  · intro j hj
    rw [Nat.add_assoc, h (xs.length + j) (by rw [List.length_append]; omega),
      List.getElem?_append_right (Nat.le_add_right _ _), Nat.add_sub_cancel_left]

/-! ### The bytes a load meets -/

theorem seenBytes_succ (s : State) (x n : Nat) (b : Byte) (bs : List Byte) :
    seenBytes s x (n + 1) = some (b :: bs) ↔
      seenByte s x = some b ∧ seenBytes s (x + 1) n = some bs := by
  rw [seenBytes]
  cases seenByte s x <;> cases seenBytes s (x + 1) n <;> simp

theorem seenBytes_one (s : State) (x : Nat) (bs : List Byte) (h : seenBytes s x 1 = some bs) :
    ∃ b, seenByte s x = some b ∧ bs = [b] := by
  cases hb : seenByte s x with
  | none => simp [seenBytes, hb] at h
  | some b => exact ⟨b, rfl, by simpa [seenBytes, hb, eq_comm] using h⟩

theorem seenBytes_eq_none (s : State) (x n k : Nat) (hk : k < n) (h : seenByte s (x + k) = none) :
    seenBytes s x n = none := by
  induction n generalizing x k with
  | zero => omega
  | succ n ih =>
    rw [seenBytes]
    cases k with
    | zero => rw [show seenByte s x = none from h]
    | succ k =>
      rw [ih (x + 1) k (by omega) (by rwa [Nat.add_assoc, Nat.add_comm 1])]
      cases seenByte s x <;> rfl

/-- 20_memory.md R34: where nothing is in flight a load meets the bytes memory holds. -/
theorem seenBytes_of_held (s : State) (x : Nat) (bs : List Byte)
    (hquiet : ∀ y, seenByte s y = memGet s.mem y) (h : HoldsBytes s.mem x bs) :
    seenBytes s x bs.length = some bs := by
  induction bs generalizing x with
  | nil => rfl
  | cons b bs ih =>
    obtain ⟨hhead, htail⟩ := holdsBytes_of_append s.mem x [b] bs h
    refine (seenBytes_succ s x bs.length b bs).mpr ⟨?_, ih (x + 1) htail⟩
    rw [hquiet]
    exact hhead 0 (by simp)

theorem focus_idle (s : State) (k : Nat) (h : AllIdle s) (hk : k < s.instances) :
    (s.focus k).engine.phase = .idle := by
  cases k with
  | zero => exact h.1
  | succ k => exact h.2 _ (focus_succ_block_mem s k hk)

theorem seenByte_of_allIdle (s : State) (h : AllIdle s) (x : Nat) : seenByte s x = memGet s.mem x := by
  refine seenByte_quiet s x fun k a r hk hturn => ?_
  rw [engineTurn_idle _ (focus_idle s k h hk)] at hturn
  cases hturn

/-- A load of memory as the next input, where every byte it meets has a value. -/
theorem step_load (s : State) (a : Word) (z : Size) (rest : List Input) (bs : List Byte)
    (hinput : s.inputs = .load a z :: rest) (htouch : touchesAnyWindow s.platform a.toNat z.bytes = false)
    (hadmits : admitsLoad s.platform a.toNat z.bytes = true)
    (hseen : seenBytes (s.withInputs rest) a.toNat z.bytes = some bs) :
    step s = .next (((s.withInputs rest).withLastRead (some (BitVec.ofNat 64 (fromLE bs)))).withDraws
      (nextDraws (s.withInputs rest))) := by
  simp [step_input s _ rest hinput, runInput, busLoad, (windowOf_eq_none _ _ _).mpr htouch, hadmits, hseen]

theorem ofNat_fromLE_singleton (b : Byte) : BitVec.ofNat 64 (fromLE [b]) = b.setWidth 64 := by
  simp [fromLE, BitVec.ofNat_toNat]

/-! ### Loads of a record and of a table -/

/-- Settles O50: each load's bytes are a part of the formatted record, read as a number. -/
theorem recordLoads : Obligations.RecordLoads := by
  intro s r a b rest hidle hb hheld htouch hadmits
  have hquiet := seenByte_of_allIdle (s.withInputs rest) hidle
  obtain ⟨hhead, htail⟩ := holdsBytes_of_append s.mem a.toNat _ _ (formatRecord_eq r ▸ hheld)
  rw [headBytes_length, ← hb] at htail
  have load (c : Word) (z : Size) (bs : List Byte) (v : DWord) (hle : a.toNat ≤ c.toNat)
      (hend : c.toNat + z.bytes ≤ a.toNat + 8) (hlen : bs.length = z.bytes)
      (hbytes : HoldsBytes s.mem c.toNat bs) (hv : BitVec.ofNat 64 (fromLE bs) = v)
      (hinput : s.inputs = .load c z :: rest) :
      ∃ n, step s = .next (((s.withInputs rest).withLastRead (some v)).withDraws n) :=
    ⟨_, hv ▸ step_load s c z rest bs hinput (touchesAnyWindow_part _ _ _ _ _ hle hend htouch)
      (admitsLoad_part _ _ _ _ _ hle hend hadmits) (hlen ▸ seenBytes_of_held _ _ bs hquiet hbytes)⟩
  refine ⟨load a .word _ _ le_rfl (by simp [Size.bytes]) (headBytes_length r) hhead ?_,
    load b .word _ _ (by omega) (by simp [Size.bytes, hb]) (leBytes_length 4 _) htail ?_,
    load a .dword _ _ le_rfl le_rfl (formatRecord_length r) hheld ?_⟩
  · rw [fromLE_headBytes, word0_eq, BitVec.ofNat_toNat]
  · rw [fromLE_leBytes_toNat 4 r.address, BitVec.ofNat_toNat]
  · rw [fromLE_formatRecord, BitVec.ofNat_toNat, BitVec.setWidth_eq]

/-- Settles O51: no window is touched, so memory's admission and then its bytes decide. -/
theorem agentAccessFaults : Obligations.AgentAccessFaults := by
  intro s a z v rest htouch
  have hwindow := (windowOf_eq_none _ _ _).mpr htouch
  refine ⟨fun hinput hadmits => ?_, fun hinput hadmits => ?_, fun hinput hadmits hidle hunwritten => ?_⟩
  · simp [step_input s _ rest hinput, runInput, busStore, hwindow, hadmits]
  · simp [step_input s _ rest hinput, runInput, busLoad, hwindow, hadmits]
  · obtain ⟨k, hk, hnone⟩ := hunwritten
    have hseen := seenBytes_eq_none (s.withInputs rest) a.toNat z.bytes k hk
      ((seenByte_of_allIdle (s.withInputs rest) hidle _).trans hnone)
    simp [step_input s _ rest hinput, runInput, busLoad, hwindow, hadmits, hseen]

/-- Settles O55: once DONE is set no record is in flight over the table, and memory holds it. -/
theorem finishedTableIsSeen : Obligations.FinishedTableIsSeen := by
  intro s j a rest hinv htable hdisjoint hdone hj ha hinput htouch hadmits
  obtain ⟨⟨hok, -, hdoneOk⟩, -⟩ := hinv
  obtain ⟨hidle, -⟩ := hdoneOk hdone
  have hlt : j < (table s).length := by rwa [table_length s hok]
  have hget : (table s)[j]? = some (table s)[j] := List.getElem?_eq_getElem hlt
  have hquiet : seenByte (s.withInputs rest) a.toNat = memGet s.mem a.toNat := by
    refine seenByte_quiet (s.withInputs rest) a.toNat fun k x r hk hturn => ?_
    rw [State.focus_withInputs, engineTurn_withInputs] at hturn
    cases k with
    | zero =>
      rw [engineTurn_idle (s.focus 0) hidle] at hturn
      cases hturn
    | succ k =>
      have hclear := otherRecord_clear_of_table s k x r hdisjoint hk hturn
      simp only [Config.recSize] at hclear ⊢
      omega
  have hseen : seenBytes (s.withInputs rest) a.toNat 1 = some [(table s)[j]] :=
    (seenBytes_succ _ _ 0 _ []).mpr ⟨by rw [hquiet, ha, htable.2 hdone j hlt, hget], rfl⟩
  refine ⟨(table s)[j], nextDraws (s.withInputs rest), hget, ?_⟩
  rw [step_load s a .byte rest _ hinput htouch hadmits hseen, ofNat_fromLE_singleton]

/-- A byte a load meets in flight is the new byte of some BUSY block's record SER_IDX. -/
theorem flight_table_byte (s : State) (a x : Nat) (r : Record) (hturn : engineTurn s = .write a r)
    (hle : a ≤ x) (hlt : x < a + Config.recSize) :
    s.engine.phase = .ser ∧
    x = s.engine.serBase.toNat + Config.recSize * s.engine.serIdx.toNat + (x - a) ∧
    (table s)[Config.recSize * s.engine.serIdx.toNat + (x - a)]? = (formatRecord r)[x - a]? := by
  obtain ⟨hser, hr, -⟩ := engineTurn_write s a r hturn
  obtain ⟨-, -, hget⟩ := recordAt_lt s _ r hr
  obtain ⟨-, ha, -⟩ := engineTurn_write_inside s a r hturn
  exact ⟨hser, by omega, serialize_record_byte _ _ _ r hget (by omega)⟩

/-- Settles O49: the byte is memory's or in flight; over this table only this block's own record is. -/
theorem loadDuringSerialization : Obligations.LoadDuringSerialization := by
  intro s t a rest hinv hser hinput htouch h
  rw [step_input s _ rest hinput] at h
  obtain ⟨k, hk, -⟩ | ⟨-, -, bs, hseen, rfl⟩ := busLoad_cases a .byte _ t h
  · have hnone := (windowOf_eq_none _ _ _).mpr htouch
    exact absurd (hnone.symm.trans hk) (by simp)
  obtain ⟨b, hb, rfl⟩ := seenBytes_one _ _ bs hseen
  refine ⟨rfl, rfl, rfl, rfl, rfl, rfl, b, by rw [← ofNat_fromLE_singleton]; rfl, ?_⟩
  obtain hmem | ⟨k, x, r, hk, hturn, hle, hlt, hflight⟩ := seenByte_cases (s.withInputs rest) a.toNat
  · have hheld : memGet s.mem a.toNat = some b := hmem.symm.trans hb
    exact ⟨.inl hheld, fun _ _ _ _ => hheld⟩
  rw [State.focus_withInputs, engineTurn_withInputs] at hturn
  obtain ⟨hphase, hpos, hbyte⟩ := flight_table_byte _ x a.toNat r hturn hle hlt
  refine ⟨.inr ⟨k, a.toNat - x, hk, by simp only [Config.recSize] at hlt; omega, hphase, hpos, ?_⟩, ?_⟩
  · exact hbyte.trans (hflight.symm.trans hb)
  · intro hdisjoint hlow hhigh hout
    exfalso
    cases k with
    | zero =>
      simp only [State.focus_zero, Config.recSize] at hpos hlt
      omega
    | succ k =>
      have hclear := otherRecord_clear_of_table s k x r hdisjoint hk hturn
      simp only [Config.recSize] at hclear hlt
      omega

end Sys2Proof.Proofs
end

section
/-! A whole serialization with nothing else arriving (42_host_commands.md R97, 70_reset_and_hazards.md
R131): one engine turn after another, until the last record sets DONE. -/

namespace Sys2Proof.Proofs

open Sys2Proof.Machine

/-- A serialization that nothing disturbs: BUSY, no input waits, and memory takes the rest of the table. -/
structure Undisturbed (s : State) : Prop where
  inv : Inv s
  busy : s.engine.phase = .ser
  quiet : s.inputs = []
  writable : TableWritable s
  held : TableInMemory s

/-- What the turns of block 0's engine leave: its chain, its registers, OVR, the place of its table and
every byte outside it. -/
structure TurnsFrame (s t : State) : Prop where
  chain : t.chain = s.chain
  regs : t.regs = s.regs
  base : t.engine.serBase = s.engine.serBase
  platform : t.platform = s.platform
  ovr : t.status.ovr = s.status.ovr
  mem : ∀ x, (x < s.engine.serBase.toNat ∨
    s.engine.serBase.toNat + Config.recSize * s.chain.count.toNat ≤ x) → memGet t.mem x = memGet s.mem x

theorem TurnsFrame.trans {s t u : State} (h : TurnsFrame s t) (g : TurnsFrame t u) : TurnsFrame s u where
  chain := g.chain.trans h.chain
  regs := g.regs.trans h.regs
  base := g.base.trans h.base
  platform := g.platform.trans h.platform
  ovr := g.ovr.trans h.ovr
  mem x hx := (g.mem x (by rwa [h.base, h.chain])).trans (h.mem x hx)

theorem TurnsFrame.tableWritable {s t : State} (h : TurnsFrame s t) (hs : TableWritable s) :
    TableWritable t := by
  rw [TableWritable, h.platform, h.base, h.chain]
  exact hs

/-- The record an undisturbed serialization writes next. -/
theorem Undisturbed.exists_record {s : State} (h : Undisturbed s) :
    ∃ r, recordAt s s.engine.serIdx.toNat = some r ∧ engineTurn s = .write (nextRecordAddr s) r := by
  obtain ⟨⟨hok, hengine, -⟩, -⟩ := h.inv
  obtain ⟨hvalid, hlt, -⟩ := hengine h.busy
  obtain ⟨hwindow, hadmits⟩ := h.writable
  simp only [State.block_engine, State.block_chain] at hlt
  obtain ⟨r, hr⟩ := exists_recordAt s s.engine.serIdx.toNat hok hvalid hlt
  refine ⟨r, hr, engineTurn_of_write s r h.busy hr hwindow (admitsStore_part _ _ _ _ _ ?_ ?_ hadmits)⟩
  all_goals simp only [nextRecordAddr, Config.recSize]; omega

/-- R97: one turn of an undisturbed serialization. -/
theorem Undisturbed.turn {s : State} (h : Undisturbed s) :
    ∃ t, step s = .next t ∧ TurnsFrame s t ∧ Inv t ∧ t.inputs = [] ∧ TableInMemory t ∧
      t.engine.serIdx.toNat = s.engine.serIdx.toNat + 1 ∧
      (s.engine.serIdx.toNat + 1 = s.chain.count.toNat → t.engine.phase = .idle ∧ t.status.done = true) ∧
      (s.engine.serIdx.toNat + 1 ≠ s.chain.count.toNat → t.engine.phase = .ser) := by
  obtain ⟨r, hr, hturn⟩ := h.exists_record
  obtain ⟨-, -, -, hwindow, hadmits⟩ := engineTurn_write s _ r hturn
  obtain ⟨-, -, hinside⟩ := engineTurn_write_inside s _ r hturn
  obtain ⟨t, hnext, -, hmem, hidx, -, hbase, hlast, hmid, hovr, -, hchain, hregs, -, hplatform,
    hinputs, -⟩ := engineWritesOneRecord s r (.inl h.quiet) h.busy hr hwindow hadmits
  have hengine := (step_engineArrives s (.inl h.quiet) (canStep_of_write s _ r hturn)).symm.trans hnext
  have htable := engineStep_tableInMemory (s.withInputs s.inputs.tail) t h.inv.1 h.held hengine
  refine ⟨t, hnext, ⟨hchain, hregs, hbase, hplatform, hovr, fun x hx => hmem x ?_⟩,
    everyStepKeepsTheInvariant s t h.inv hnext, ?_, htable, hidx, hlast, fun hne => (hmid hne).1⟩
  · simp only [nextRecordAddr, Config.recSize] at hinside hx
    omega
  · rw [hinputs, h.quiet, List.tail_nil]

/-- R97, R131: with `n + 1` records to go, BUSY for `n` turns and done after one more. -/
theorem Undisturbed.run {s : State} (h : Undisturbed s) (n : Nat)
    (hn : s.engine.serIdx.toNat + (n + 1) = s.chain.count.toNat) :
    (∀ k, k < n + 1 → ∃ u : State, Host.Core.run Sys2Proof.core k s = .next u ∧ u.engine.phase = .ser) ∧
    ∃ t : State, Host.Core.run Sys2Proof.core (n + 1) s = .next t ∧ TurnsFrame s t ∧ Inv t ∧
      TableInMemory t ∧ t.engine.phase = .idle ∧ t.status.done = true := by
  induction n generalizing s with
  | zero =>
    obtain ⟨t, hnext, hframe, hinv, -, htable, -, hlast, -⟩ := h.turn
    obtain ⟨hidle, hdone⟩ := hlast hn
    refine ⟨fun k hk => ⟨s, ?_, h.busy⟩, t, ?_, hframe, hinv, htable, hidle, hdone⟩
    · obtain rfl : k = 0 := Nat.lt_one_iff.mp hk
      exact core_run_zero s
    · rw [core_run_succ 0 s t hnext]
      exact core_run_zero t
  | succ n ih =>
    obtain ⟨t, hnext, hframe, hinv, hinputs, htable, hidx, -, hmid⟩ := h.turn
    have hrest : Undisturbed t :=
      ⟨hinv, hmid (by omega), hinputs, hframe.tableWritable h.writable, htable⟩
    obtain ⟨hbusy, u, hu, hframe', hend⟩ := ih hrest (by rw [hidx, hframe.chain]; omega)
    refine ⟨fun k hk => ?_, u, ?_, hframe.trans hframe', hend⟩
    · cases k with
      | zero => exact ⟨s, core_run_zero s, h.busy⟩
      | succ k =>
        rw [core_run_succ k s t hnext]
        exact hbusy k (Nat.lt_of_succ_lt_succ hk)
    · rw [core_run_succ (n + 1) s t hnext]
      exact hu

/-- Settles O59: the turns still to take; what DONE then says of BYTES_OUT and ERR is the invariant's. -/
theorem serializationCompletes : Obligations.SerializationCompletes := by
  intro s hinv hser hinputs hwritable htable
  have hundisturbed : Undisturbed s := ⟨hinv, hser, hinputs, hwritable, htable⟩
  obtain ⟨⟨-, hengine, -⟩, -⟩ := hinv
  obtain ⟨-, hlt, -⟩ := hengine hser
  simp only [State.block_engine, State.block_chain] at hlt
  obtain ⟨n, hn⟩ : ∃ n, s.chain.count.toNat = s.engine.serIdx.toNat + (n + 1) :=
    Nat.exists_eq_add_of_lt hlt
  have hturns : s.chain.count.toNat - s.engine.serIdx.toNat = n + 1 := by omega
  obtain ⟨hbusy, t, hrun, hframe, hinvt, htablet, hidle, hdone⟩ := hundisturbed.run n hn.symm
  obtain ⟨⟨-, -, hdoneOk⟩, -⟩ := hinvt
  obtain ⟨-, herr, -, -, hbytes⟩ := hdoneOk hdone
  have hheld := htablet.2 hdone
  rw [hframe.base, table_congr s t hframe.chain] at hheld
  rw [hturns]
  refine ⟨hbusy, t, hrun, hidle, hdone, hframe.ovr, herr, hframe.chain, hframe.regs, ?_, hheld, hframe.mem⟩
  rw [← hframe.chain]
  exact hbytes

/-- 42_host_commands.md R94: the state SERIALIZE leaves when every check passes. -/
def started (s : State) : State := (clearStatus s).withEngine ⟨.ser, 0, s.regs.tblBase, 0⟩

/-- 10_state.md R23: SERIALIZE starts the engine in a state of the invariant. -/
theorem started_inv (s : State) (hinv : Inv s) (hidle : s.engine.phase = .idle)
    (hvalid : s.chain.valid = true) (halign : s.regs.tblBase.toNat % 8 = 0)
    (hcap : Config.recSize * s.chain.count.toNat ≤ s.regs.tblCap.toNat)
    (hfits : s.regs.tblBase.toNat + Config.recSize * s.chain.count.toNat ≤ Config.addrSpace) :
    Inv (started s) := by
  obtain ⟨⟨hok, -⟩, hothers, hlen, hwf⟩ := hinv
  have hblock := serializeBody_blockOk (clearStatus s) (ready_clearStatus s hok hidle)
  rw [serializeBody_accepted (clearStatus s) hvalid halign hcap hfits] at hblock
  exact ⟨hblock, hothers, hlen, hwf⟩

/-- Settles O60: outside the table nothing is written, and on it the table was there before. -/
theorem serializingAgainChangesNoByte : Obligations.SerializingAgainChangesNoByte := by
  intro s hinv hidle hinputs hvalid halign hcap hfits hwindow hadmits hheld
  have hinvt := started_inv s hinv hidle hvalid halign hcap hfits
  obtain ⟨-, u, hrun, -, hdone, -, -, -, -, -, htable, hmem⟩ := serializationCompletes (started s) hinvt
    rfl hinputs ⟨hwindow, hadmits⟩ (tableInMemory_of_start _ (fun _ => rfl) rfl)
  refine ⟨started s, u, serializeStartsTheEngine s hidle hvalid halign hcap hfits, hrun, hdone,
    fun x => ?_⟩
  obtain ⟨⟨hok, -⟩, -⟩ := hinv
  by_cases hout : x < s.regs.tblBase.toNat ∨ s.regs.tblBase.toNat + 8 * s.chain.count.toNat ≤ x
  · exact hmem x hout
  · obtain ⟨j, rfl⟩ := Nat.exists_eq_add_of_le (Nat.le_of_not_lt (not_or.mp hout).1)
    have hj : j < (table s).length := by
      rw [table_length s hok, Config.recSize]
      omega
    exact (htable j hj).trans (hheld j hj).symm

end Sys2Proof.Proofs
end
